-- ==== Sys2Proof/Word.lean ====
section
/-! DEFINITION. The machine's one data width: a 16-bit cell (00_scope.md R6, R7). -/
namespace Sys2Proof

/-- One cell of code or stack memory: a 16-bit pattern (00_scope.md R6, R7). -/
abbrev Word16 := BitVec 16

/-- The integers a 16-bit cell can hold as a signed value (00_scope.md R7). -/
abbrev Fits16 (v : Int) : Prop := -32768 ≤ v ∧ v ≤ 32767

end Sys2Proof
end

