-- ==== Sys2Proof/Syntax.lean ====
section
/-! DEFINITION. The fourteen instructions of spec/opcode_table.json, in the order of the opcode map
(30_encoding.md R62). A unary instruction carries its immediate as the signed integer the spec uses (R61). -/
namespace Sys2Proof

/-- The instruction set (30_encoding.md R62, R63). -/
inductive Instr where
  /-- `HALT` (41_halt.md R90) -/
  | halt
  /-- `ADD` (42_arithmetic.md R100) -/
  | add
  /-- `DOT` (43_stack_output.md R110) -/
  | dot
  /-- `MPY` (42_arithmetic.md R102) -/
  | mpy
  /-- `SUB` (42_arithmetic.md R101) -/
  | sub
  /-- `UNLK` (44_frame.md R123) -/
  | unlk
  /-- `CALL t`, `t` an absolute code index (45_control.md R130) -/
  | call (t : Int)
  /-- `EXIT k`, `k` a count of cells (45_control.md R131) -/
  | exit (k : Int)
  /-- `INT k`, `k` a literal (43_stack_output.md R111) -/
  | int (k : Int)
  /-- `JMP off`, `off` relative to the next instruction (45_control.md R133) -/
  | jmp (off : Int)
  /-- `JZR off`, `off` relative to the next instruction (45_control.md R132) -/
  | jzr (off : Int)
  /-- `LINK k`, `k` a count of local cells (44_frame.md R122) -/
  | link (k : Int)
  /-- `LOAD k`, `k` a frame offset (44_frame.md R120) -/
  | load (k : Int)
  /-- `STORE k`, `k` a frame offset (44_frame.md R121) -/
  | store (k : Int)
  deriving DecidableEq, Repr

/-- The immediate of a unary instruction, none for a nullary one (30_encoding.md R60, R63). -/
def Instr.operand : Instr → Option Int
  | .halt | .add | .dot | .mpy | .sub | .unlk => none
  | .call k | .exit k | .int k | .jmp k | .jzr k | .link k | .load k | .store k => some k

end Sys2Proof
end

