-- ==== Sys2Proof/WellFormed.lean ====
section
/-! DEFINITION. Which instructions an encoding can hold: the immediate is the signed value of one
16-bit cell (30_encoding.md R61). -/
namespace Sys2Proof

/-- Every immediate lies in `[-32768, 32767]` (30_encoding.md R61); a nullary instruction has none. -/
def Instr.wellFormed (i : Instr) : Bool :=
  match i.operand with
  | none => true
  | some k => decide (Fits16 k)

end Sys2Proof
end

