-- ==== Sys2Proof/Decode.lean ====
section
/-! DEFINITION. Cells to instructions and back (30_encoding.md R60 to R65), with the two readings of a
cell as a signed value (00_scope.md R7). -/
namespace Sys2Proof

/-- `sint16(w)`: the signed value of a cell, in two's complement (00_scope.md R7).
PRESUMED by the spec itself, 93_implementation_defined.md G1 (log 13). -/
def sint16 (w : Word16) : Int := w.toInt

/-- `word16(v)`: the cell whose signed value is `v`, defined only for `v` in `[-32768, 32767]`
(00_scope.md R7). DESIGN CHOICE: outside that range, which no reachable state uses, the low 16 bits (log 9). -/
def word16 (v : Int) : Word16 := BitVec.ofInt 16 v

/-- Why a list of cells is not an instruction. -/
inductive DecodeError where
  /-- There is no cell to read an opcode from. -/
  | noOpcode
  /-- The opcode cell's value is in no row of the opcode map (30_encoding.md R65). -/
  | unrecognizedOpcode (op : Word16)
  /-- A unary opcode with no operand cell after it (40_cycle.md R83). -/
  | noOperand (op : Word16)
  deriving DecidableEq, Repr

/-- The nullary rows of the opcode map: values 0 to 5 (30_encoding.md R62, R63). -/
def nullaryOf (op : Word16) : Option Instr :=
  match op.toNat with
  | 0 => some .halt
  | 1 => some .add
  | 2 => some .dot
  | 3 => some .mpy
  | 4 => some .sub
  | 5 => some .unlk
  | _ => none

/-- The unary rows of the opcode map: values 7 to 14, each waiting for its immediate
(30_encoding.md R62, R63). -/
def unaryOf (op : Word16) : Option (Int → Instr) :=
  match op.toNat with
  | 7 => some .call
  | 8 => some .exit
  | 9 => some .int
  | 10 => some .jmp
  | 11 => some .jzr
  | 12 => some .link
  | 13 => some .load
  | 14 => some .store
  | _ => none

/-- The instruction at the head of the cells and the cells after it. The whole opcode cell selects the
instruction and its length (30_encoding.md R60, R62, R64); the immediate is the signed value of the whole
second cell (R61); every other opcode value, 6 included, is refused (R65). -/
def decode : List Word16 → Except DecodeError (Instr × List Word16)
  | [] => .error .noOpcode
  | op :: rest =>
    match nullaryOf op with
    | some i => .ok (i, rest)
    | none =>
      match unaryOf op with
      | none => .error (.unrecognizedOpcode op)
      | some mk =>
        match rest with
        | [] => .error (.noOperand op)
        | w :: rest => .ok (mk (sint16 w), rest)

/-- The opcode cell of an instruction (30_encoding.md R62). -/
def Instr.opcode : Instr → Word16
  | .halt => 0x0000
  | .add => 0x0001
  | .dot => 0x0002
  | .mpy => 0x0003
  | .sub => 0x0004
  | .unlk => 0x0005
  | .call _ => 0x0007
  | .exit _ => 0x0008
  | .int _ => 0x0009
  | .jmp _ => 0x000A
  | .jzr _ => 0x000B
  | .link _ => 0x000C
  | .load _ => 0x000D
  | .store _ => 0x000E

/-- The cells of an instruction: the opcode cell, and the operand cell `word16(k)` of a unary one
(30_encoding.md R60, R61, R73). -/
def encode (i : Instr) : List Word16 :=
  match i.operand with
  | none => [i.opcode]
  | some k => [i.opcode, word16 k]

/-- How many cells the instruction occupies (30_encoding.md R64). -/
def Instr.size (i : Instr) : Nat :=
  match i.operand with
  | none => 1
  | some _ => 2

/-- The two cells of an instruction numbered as spec/opcode_table.json numbers its bits: bit 0 is the
least significant bit of the first cell, the second cell follows, and bits at `nbits` and above are 0. -/
def tableCells (nbits w : Nat) : List Word16 :=
  let v := w % 2 ^ nbits
  [BitVec.ofNat 16 v, BitVec.ofNat 16 (v / 65536)]

/-- What the decoder reads from an instruction given as the opcode table numbers its bits. -/
def decodeTableWord (nbits w : Nat) : Option Instr :=
  match decode (tableCells nbits w) with
  | .ok (i, _) => some i
  | .error _ => none

end Sys2Proof
end

