-- ==== Sys2Proof/Config.lean ====
section
/-! DEFINITION. The implementation parameters (00_scope.md R5) and the model's one free value. -/
namespace Sys2Proof

/-- The order of the two steps of `EXIT` (00_scope.md R5, 90_conflicts.md C4). -/
inductive ExitOrder where
  /-- Lower `sp` first, then pop the return address: the spec's default (decision D10). -/
  | dropThenPop
  /-- Pop the return address first, then lower `sp`. -/
  | popThenDrop
  deriving DecidableEq, Repr

/-- The parameters of 00_scope.md R5, each fixed for one launch; `LEN` is state (`State.len`). -/
structure Config where
  /-- `CODE_CAP`: cells of the instruction stream memory. -/
  codeCap : Nat
  /-- `STACK_CAP`: cells of the operand stack memory. -/
  stackCap : Nat
  /-- `EXIT_ORDER`. -/
  exitOrder : ExitOrder
  /-- `TRACE_ENABLED`. -/
  traceEnabled : Bool
  deriving DecidableEq, Repr

/-- The spec's defaults (00_scope.md R5). `TRACE_ENABLED` has no default there.
DESIGN CHOICE: false, as in 95_test_vectors.md's conventions (log 1). -/
def Config.default : Config :=
  { codeCap := 1024, stackCap := 1024, exitOrder := .dropThenPop, traceEnabled := false }

/-- The ranges 00_scope.md R5 sets: both capacities lie in `[1, 32767]`. -/
abbrev Config.wf (c : Config) : Prop :=
  (1 ≤ c.codeCap ∧ c.codeCap ≤ 32767) ∧ (1 ≤ c.stackCap ∧ c.stackCap ≤ 32767)

/-- FREE VALUE: what `FAULT_OPC` reads as after a fault at the given address that fetched no opcode.
10_state.md R28 calls the register meaningful only when `OPC_VALID = 1`. DESIGN CHOICE (log 10). -/
opaque Config.faultOpcUnfetched : Int → Word16

end Sys2Proof
end

