-- ==== Sys2Proof/Machine/State.lean ====
section
/-! DEFINITION. The engine's whole state (10_state.md R20 to R36), the ways a step can stop, and the state after
reset (R35). -/
namespace Sys2Proof.Machine

/-- The run state (10_state.md R26). -/
inductive RunState where
  | running
  | halted
  | faulted
  deriving DecidableEq, Repr

/-- The fault causes (60_exceptions.md R150). -/
inductive Cause where
  /-- `NONE`, code 0: no fault has happened. -/
  | noFault
  /-- `UNRECOGNIZED_OPCODE`, code 1. -/
  | unrecognizedOpcode
  /-- `FETCH_OUT_OF_RANGE`, code 2. -/
  | fetchOutOfRange
  /-- `OPERAND_OUT_OF_RANGE`, code 3. -/
  | operandOutOfRange
  /-- `STACK_OVERFLOW`, code 4. -/
  | stackOverflow
  /-- `STACK_UNDERFLOW`, code 5. -/
  | stackUnderflow
  /-- `INDEX_OUT_OF_RANGE`, code 6. -/
  | indexOutOfRange
  /-- `SP_OUT_OF_RANGE`, code 7. -/
  | spOutOfRange
  /-- `UNINITIALIZED_READ`, code 8. -/
  | uninitializedRead
  deriving DecidableEq, Repr

/-- The fault record (10_state.md R27). -/
structure FaultRecord where
  /-- One of the causes of 60_exceptions.md R150. -/
  cause : Cause
  /-- The opcode cell's value, none when the fault is the opcode fetch's own. -/
  opcode : Option Word16
  /-- The code index of the faulting instruction's opcode cell. -/
  addr : Int
  deriving DecidableEq, Repr

/-- The fault record after reset (10_state.md R27, R35). -/
def FaultRecord.empty : FaultRecord := { cause := .noFault, opcode := none, addr := 0 }

/-- One record of the trace observer port (10_state.md R33). -/
structure TraceRecord where
  /-- The code index `a` of the opcode cell. -/
  addr : Int
  /-- The opcode cell's value. -/
  opcode : Word16
  /-- The signed immediate of a unary instruction, absent for a nullary one. -/
  operand : Option Int
  /-- Stack cells `0` to `sp - 1` after the instruction; `none` is a cell that holds no value. -/
  stack : List (Option Word16)
  deriving DecidableEq, Repr

/-- One stack cell that holds a value: its index and the value. -/
abbrev Cell := Nat × Word16

/-- Stack memory: the cells that hold a value. A cell that is not listed holds no value, the spec's `⊥`
(10_state.md R32; log 4). -/
abbrev Memory := List Cell

/-- The canonical form: strictly rising indices. Every listed cell holds a value, so none equals what an
unlisted cell reads as. -/
abbrev Memory.wf (m : Memory) : Prop := m.Pairwise (fun c d => c.1 < d.1)

/-- The engine (10_state.md R20), with the model's own fields `cfg`, `resetHeld` and `trace` last. -/
structure State where
  /-- Instruction pointer (10_state.md R21): an exact integer, never wrapped. -/
  ip : Int
  /-- Stack pointer (10_state.md R22): index one past the top of stack. -/
  sp : Nat
  /-- Frame pointer (10_state.md R23). -/
  fp : Int
  /-- Run state (10_state.md R26). -/
  run : RunState
  /-- Fault record (10_state.md R27). -/
  record : FaultRecord
  /-- Code memory (10_state.md R30): the image, cells `0` to `LEN - 1`; its length is `LEN` (log 3). -/
  code : List Word16
  /-- Stack memory (10_state.md R32). -/
  stack : Memory
  /-- Output event sequence, oldest first (10_state.md R31). -/
  output : List Int
  /-- The records of the trace port so far, oldest first (10_state.md R33; log 7). -/
  trace : List TraceRecord
  /-- The host's reset input is asserted (70_reset_and_hazards.md R170; log 6). -/
  resetHeld : Bool
  /-- The parameters of this launch (00_scope.md R5; log 1). -/
  cfg : Config
  deriving DecidableEq, Repr

/-- `LEN`, the image length (00_scope.md R5, 10_state.md R20). -/
def State.len (s : State) : Nat := s.code.length

/-- Why no step is enabled. These are not the engine's faults, which are NEXT states that hold a fault record
(60_exceptions.md R150); they say that the engine is in a state without a step. -/
inductive Fault where
  /-- Raised by `step` when the run state is Halted (40_cycle.md R87). Safe: the engine does nothing there. -/
  | stuckHalted
  /-- Raised by `step` when the run state is Faulted (40_cycle.md R87). Safe: the engine does nothing there. -/
  | stuckFaulted
  /-- Raised by `step` while reset is asserted (70_reset_and_hazards.md R170). Safe: the engine does not step. -/
  | stuckInReset
  deriving DecidableEq, Repr

/-- Why an instruction has no meaning. No arm of this model uses it. -/
inductive Refusal where
  /-- Raised by exec's arm of an instruction that has no meaning yet. Safe: the model stops. -/
  | notModelled (mnemonic : String)
  deriving DecidableEq, Repr

/-- What an instruction's meaning answers. -/
abbrev Answer := Host.Outcome State Fault Refusal

/-- The state at the release of reset with the given parameters and loaded image
(10_state.md R35, 70_reset_and_hazards.md R171, R173). -/
def State.launch (cfg : Config) (image : List Word16) : State :=
  { ip := 0, sp := 0, fp := 0, run := .running, record := .empty, code := image, stack := [],
    output := [], trace := [], resetHeld := false, cfg := cfg }

/-- The machine right after reset, default parameters, nothing loaded (10_state.md R35; log 1, log 11). -/
def State.reset : State := State.launch Config.default []

end Sys2Proof.Machine
end

