-- ==== Sys2Proof/Machine/Operands.lean ====
section
/-! DEFINITION. The operand forms: how an immediate becomes an index, and the wrapping of arithmetic results. -/
namespace Sys2Proof.Machine

/-- `wrap16(v)`: the exact result modulo 65536, read as a signed value (00_scope.md R7, 42_arithmetic.md R103). -/
def wrap16 (v : Int) : Int := (v + 32768) % 65536 - 32768

/-- The stack index `LOAD k` and `STORE k` use: `fp + k`, exact (44_frame.md R124). -/
def frameIndex (s : State) (k : Int) : Int := s.fp + k

/-- The target of `JMP off` and of a taken `JZR off`: `off` from the next instruction, exact; `s.ip` is already
`a + 2` (45_control.md R132 to R134). -/
def relativeTarget (s : State) (off : Int) : Int := s.ip + off

end Sys2Proof.Machine
end

