-- ==== Sys2Proof/Machine/Ops.lean ====
section
/-! DEFINITION. The named operations: stack memory, the stack primitives, fetch, retire, and taking a fault. A body
works on a working copy and answers the copy or the cause of the first check that fails (40_cycle.md R85). -/
namespace Sys2Proof.Machine

/-- The cell at an index, none when it holds no value (10_state.md R32). -/
def Memory.read : Memory → Nat → Option Word16
  | [], _ => none
  | (j, v) :: m, i => if i = j then some v else Memory.read m i

/-- The memory with one cell set, in canonical form. -/
def Memory.write : Memory → Nat → Word16 → Memory
  | [], i, v => [(i, v)]
  | (j, w) :: m, i, v =>
    if i < j then (i, v) :: (j, w) :: m
    else if i = j then (i, v) :: m
    else (j, w) :: Memory.write m i v

/-! The updates of one part of the state. -/

/-- `ip <- v`, unchecked (40_cycle.md R82). -/
def State.withIp (s : State) (v : Int) : State := { s with ip := v }

/-- `sp <- n`. -/
def State.withSp (s : State) (n : Nat) : State := { s with sp := n }

/-- `fp <- v`, unchecked (10_state.md R23). -/
def State.withFp (s : State) (v : Int) : State := { s with fp := v }

/-- `STACK[n] <- v`. -/
def State.withCell (s : State) (n : Nat) (v : Word16) : State := { s with stack := s.stack.write n v }

/-- `Emit(v)`: append to the output sequence (10_state.md R31). -/
def State.emit (s : State) (v : Int) : State := { s with output := s.output ++ [v] }

/-- `state <- Halted` (41_halt.md R90). -/
def State.halt (s : State) : State := { s with run := .halted }

/-! The stack primitives (20_memory.md R45 to R49). -/

/-- `MemRead(STACK, i, 1)` (20_memory.md R46). -/
def memRead (s : State) (i : Int) : Except Cause Word16 :=
  if i < 0 ∨ (s.cfg.stackCap : Int) ≤ i then .error .indexOutOfRange
  else match s.stack.read i.toNat with
    | none => .error .uninitializedRead
    | some v => .ok v

/-- `MemWrite(STACK, i, 1, v)` (20_memory.md R47). -/
def memWrite (s : State) (i : Int) (v : Word16) : Except Cause State :=
  if i < 0 ∨ (s.cfg.stackCap : Int) ≤ i then .error .indexOutOfRange
  else .ok (s.withCell i.toNat v)

/-- `Push(v)` (20_memory.md R48). -/
def push (s : State) (v : Word16) : Except Cause State :=
  if s.cfg.stackCap ≤ s.sp then .error .stackOverflow
  else .ok ((s.withCell s.sp v).withSp (s.sp + 1))

/-- `Pop()`: the value and the state after it; the cell keeps its value (20_memory.md R49). -/
def pop (s : State) : Except Cause (Word16 × State) :=
  if s.sp = 0 then .error .stackUnderflow
  else match s.stack.read (s.sp - 1) with
    | none => .error .uninitializedRead
    | some v => .ok (v, s.withSp (s.sp - 1))

/-- `sp <- t` with the check of `LINK`, `UNLK` and `EXIT`: `t` in `[0, STACK_CAP]` (44_frame.md R122, R123,
45_control.md R131). -/
def moveSp (s : State) (t : Int) : Except Cause State :=
  if t < 0 ∨ (s.cfg.stackCap : Int) < t then .error .spOutOfRange
  else .ok (s.withSp t.toNat)

/-! Faults, retirement. -/

/-- TAKING A FAULT: every part of the state stays as it was when the instruction began, the run state becomes
Faulted, and the fault record is written with `addr = ip = a` (40_cycle.md R85, 60_exceptions.md R151, R156).
There is no handler and no return (R156, R157): only `assertReset` leaves the Faulted state. -/
def takeFault (s : State) (c : Cause) (op : Option Word16) : State :=
  { s with run := .faulted, record := { cause := c, opcode := op, addr := s.ip } }

/-- Stack cells `0` to `sp - 1`, bottom first (10_state.md R22, R33). -/
def stackView (s : State) : List (Option Word16) := (List.range s.sp).map s.stack.read

/-- The trace record of instruction `i` at index `a`, `t` the state after it (10_state.md R33). -/
def traceRecord (i : Instr) (a : Int) (t : State) : TraceRecord :=
  { addr := a, opcode := i.opcode, operand := i.operand, stack := stackView t }

/-- The working copy a body starts from: the fetches have moved `ip` past the instruction's cells
(40_cycle.md R81, R83). -/
def advance (i : Instr) (s : State) : State := s.withIp (s.ip + i.size)

/-- Retire: the working copy `t` becomes the state and, when tracing, one record is produced (40_cycle.md R86). -/
def retire (i : Instr) (s t : State) : State :=
  match s.cfg.traceEnabled with
  | true => { t with trace := s.trace ++ [traceRecord i s.ip t] }
  | false => t

/-- The end of every instruction: retire the working copy, or discard it and take the fault
(40_cycle.md R85, R86). `s` is the state at the start of the step. -/
def finish (i : Instr) (s : State) (body : Except Cause State) : Answer :=
  match body with
  | .ok t => .next (retire i s t)
  | .error c => .next (takeFault s c (some i.opcode))

/-! Fetch and decode. -/

/-- What keeps a step from running: reset is asserted (70_reset_and_hazards.md R170), or the run state is terminal
(40_cycle.md R87). -/
def notEnabled (s : State) : Option Fault :=
  if s.resetHeld then some .stuckInReset
  else match s.run with
    | .running => none
    | .halted => some .stuckHalted
    | .faulted => some .stuckFaulted

/-- `FetchOpcode`, `Decode` and `FetchOperand` at `ip` (40_cycle.md R81, R83, R84): the instruction, or the cause
and the fetched opcode of the fault they raise. -/
def fetch (s : State) : Except (Cause × Option Word16) Instr :=
  if s.ip < 0 ∨ (s.len : Int) ≤ s.ip then .error (.fetchOutOfRange, none)
  else match decode (s.code.drop s.ip.toNat) with
    | .ok (i, _) => .ok i
    | .error .noOpcode => .error (.fetchOutOfRange, none)
    | .error (.unrecognizedOpcode op) => .error (.unrecognizedOpcode, some op)
    | .error (.noOperand op) => .error (.operandOutOfRange, some op)

/-- The cells with some of them replaced from index `a` on, zero cells filling a gap below `a`. -/
def placeCells (code : List Word16) (a : Nat) (cells : List Word16) : List Word16 :=
  code.take a ++ List.replicate (a - code.length) 0 ++ cells ++ code.drop (a + cells.length)

/-- The state with cells in code memory at `ip` (index 0 for a negative `ip`), able to step: stands for the host's
load (log 11). -/
def placeAtIp (s : State) (cells : List Word16) : State :=
  { s with ip := s.ip.toNat, code := placeCells s.code s.ip.toNat cells, run := .running, resetHeld := false }

end Sys2Proof.Machine
end

