-- ==== Sys2Proof/Machine/Arithmetic.lean ====
section
/-! DEFINITION. ADD, SUB, MPY (42_arithmetic.md). -/
namespace Sys2Proof.Machine

/-- The shared body: pop `rhs`, pop `lhs`, push the wrapped result of `f lhs rhs` (42_arithmetic.md R100 to R103). -/
def binary (f : Int → Int → Int) (s : State) : Except Cause State := do
  let (rhs, s) ← pop s
  let (lhs, s) ← pop s
  push s (word16 (wrap16 (f (sint16 lhs) (sint16 rhs))))

/-- `ADD` (42_arithmetic.md R100). -/
def execAdd (s : State) : Answer := finish .add s (binary (fun lhs rhs => lhs + rhs) (advance .add s))

/-- `SUB`: the second popped minus the first popped (42_arithmetic.md R101, 90_conflicts.md C6). -/
def execSub (s : State) : Answer := finish .sub s (binary (fun lhs rhs => lhs - rhs) (advance .sub s))

/-- `MPY`: the low 16 bits of the product (42_arithmetic.md R102). -/
def execMpy (s : State) : Answer := finish .mpy s (binary (fun lhs rhs => lhs * rhs) (advance .mpy s))

end Sys2Proof.Machine
end

