-- ==== Sys2Proof/Machine/Flags.lean ====
section
/-! DEFINITION. The engine has no flags (10_state.md R25). Its only test is `JZR`'s test of the popped value. -/
namespace Sys2Proof.Machine

/-- `JZR`'s test: only the cell `0x0000` is zero (45_control.md R132). -/
def isZero (w : Word16) : Bool := w.toNat == 0

end Sys2Proof.Machine
end

