-- ==== Sys2Proof/Machine/Control.lean ====
section
/-! DEFINITION. CALL, EXIT, JZR, JMP (45_control.md). -/
namespace Sys2Proof.Machine

/-- `CALL t`: push the return address `a + 2` and jump to `t`, unchecked (45_control.md R130, 90_conflicts.md C3). -/
def execCall (t : Int) (s : State) : Answer :=
  finish (.call t) s do
    let s := advance (.call t) s
    let s ← push s (word16 s.ip)
    return s.withIp t

/-- `EXIT`'s body with `EXIT_ORDER = DropThenPop` (45_control.md R131). -/
def exitDropThenPop (k : Int) (s : State) : Except Cause State := do
  let s ← moveSp s (s.sp - k)
  let (r, s) ← pop s
  return s.withIp (sint16 r)

/-- `EXIT`'s body with `EXIT_ORDER = PopThenDrop` (45_control.md R131). -/
def exitPopThenDrop (k : Int) (s : State) : Except Cause State := do
  let (r, s) ← pop s
  let s ← moveSp s (s.sp - k)
  return s.withIp (sint16 r)

/-- `EXIT k`: move `sp` down by `k` and pop the return address into `ip`, in the order of `EXIT_ORDER`
(45_control.md R131, 90_conflicts.md C4; log 12). -/
def execExit (k : Int) (s : State) : Answer :=
  finish (.exit k) s
    (match s.cfg.exitOrder with
    | .dropThenPop => exitDropThenPop k (advance (.exit k) s)
    | .popThenDrop => exitPopThenDrop k (advance (.exit k) s))

/-- `JZR off`: pop; if the value is zero, jump (45_control.md R132, 90_conflicts.md C5). -/
def execJzr (off : Int) (s : State) : Answer :=
  finish (.jzr off) s do
    let (x, s) ← pop (advance (.jzr off) s)
    return if isZero x then s.withIp (relativeTarget s off) else s

/-- `JMP off` (45_control.md R133). -/
def execJmp (off : Int) (s : State) : Answer :=
  finish (.jmp off) s
    (.ok ((advance (.jmp off) s).withIp (relativeTarget (advance (.jmp off) s) off)))

end Sys2Proof.Machine
end

