-- ==== Sys2Proof/Machine/Frame.lean ====
section
/-! DEFINITION. LOAD, STORE, LINK, UNLK (44_frame.md). -/
namespace Sys2Proof.Machine

/-- `LOAD k`: push a copy of the cell at `fp + k` (44_frame.md R120). -/
def execLoad (k : Int) (s : State) : Answer :=
  finish (.load k) s do
    let s := advance (.load k) s
    let v ← memRead s (frameIndex s k)
    push s v

/-- `STORE k`: pop, then write the cell at `fp + k` (44_frame.md R121). -/
def execStore (k : Int) (s : State) : Answer :=
  finish (.store k) s do
    let (x, s) ← pop (advance (.store k) s)
    memWrite s (frameIndex s k) x

/-- `LINK k`: push `fp`, point `fp` at the cell just pushed, reserve `k` cells (44_frame.md R122,
90_conflicts.md C1). -/
def execLink (k : Int) (s : State) : Answer :=
  finish (.link k) s do
    let s ← push (advance (.link k) s) (word16 s.fp)
    let s := s.withFp ((s.sp : Int) - 1)
    moveSp s (s.sp + k)

/-- `UNLK`: discard everything above the saved-fp cell and pop it into `fp` (44_frame.md R123). -/
def execUnlk (s : State) : Answer :=
  finish .unlk s do
    let s ← moveSp (advance .unlk s) (s.fp + 1)
    let (v, s) ← pop s
    return s.withFp (sint16 v)

end Sys2Proof.Machine
end

