-- ==== Sys2Proof/Machine/Halt.lean ====
section
/-! DEFINITION. HALT (41_halt.md). -/
namespace Sys2Proof.Machine

/-- `HALT`: stop the run; `ip` stays `a + 1` (41_halt.md R90). -/
def execHalt (s : State) : Answer :=
  finish .halt s (.ok (advance .halt s).halt)

end Sys2Proof.Machine
end

