-- ==== Sys2Proof/Machine/StackOutput.lean ====
section
/-! DEFINITION. DOT, INT (43_stack_output.md). -/
namespace Sys2Proof.Machine

/-- `DOT`: pop a value and emit it (43_stack_output.md R110). -/
def execDot (s : State) : Answer :=
  finish .dot s do
    let (x, s) ← pop (advance .dot s)
    return s.emit (sint16 x)

/-- `INT k`: push the literal (43_stack_output.md R111). -/
def execInt (k : Int) (s : State) : Answer :=
  finish (.int k) s (push (advance (.int k) s) (word16 k))

end Sys2Proof.Machine
end

