-- ==== Sys2Proof/Machine/Dispatch.lean ====
section
/-! DEFINITION. One arm per instruction: the direct call of its meaning. -/
namespace Sys2Proof.Machine

/-- The execute body that decoding selects (40_cycle.md R80, R84), from the state at the start of the step. -/
def exec (i : Instr) (s : State) : Host.Outcome State Fault Refusal :=
  match i with
  | .halt => Sys2Proof.Machine.execHalt s
  | .add => Sys2Proof.Machine.execAdd s
  | .dot => Sys2Proof.Machine.execDot s
  | .mpy => Sys2Proof.Machine.execMpy s
  | .sub => Sys2Proof.Machine.execSub s
  | .unlk => Sys2Proof.Machine.execUnlk s
  | .call t => Sys2Proof.Machine.execCall t s
  | .exit k => Sys2Proof.Machine.execExit k s
  | .int k => Sys2Proof.Machine.execInt k s
  | .jmp off => Sys2Proof.Machine.execJmp off s
  | .jzr off => Sys2Proof.Machine.execJzr off s
  | .link k => Sys2Proof.Machine.execLink k s
  | .load k => Sys2Proof.Machine.execLoad k s
  | .store k => Sys2Proof.Machine.execStore k s

end Sys2Proof.Machine
end

