-- ==== Sys2Proof/Machine/Step.lean ====
section
/-! DEFINITION. One step of the engine (40_cycle.md R80), and the placing of an instruction for the host. -/
namespace Sys2Proof.Machine

/-- One fetch-decode-execute cycle (40_cycle.md R80): nothing where no step is enabled (R87), the fault of the
fetches or of decode (R81, R83, R84), or the decoded instruction. -/
def step (s : State) : Host.Outcome State Fault Refusal :=
  match notEnabled s with
  | some f => .fault f
  | none =>
    match fetch s with
    | .error (c, op) => .next (takeFault s c op)
    | .ok i => exec i s

/-- The state with an instruction, its bits numbered as spec/opcode_table.json numbers them, placed where the next
step fetches (log 11). -/
def State.withFetchWord (s : State) (nbits w : Nat) : State := placeAtIp s (tableCells nbits w)

end Sys2Proof.Machine
end

