-- ==== Sys2Proof/Machine/Assembler.lean ====
section
/-! DEFINITION. The encoder that turns assembly text into the engine's image (30_encoding.md R70 to R78). A source is
a list of lines, a line a list of characters without its line end. -/
namespace Sys2Proof.Machine

/-- One line of source text. -/
abbrev Line := List Char

/-- What a mnemonic stands for: a nullary instruction, or a unary one that waits for its immediate. -/
inductive LineShape where
  | nullary (i : Instr)
  | unary (mk : Int → Instr)

/-- The encoding-time errors (30_encoding.md R73, R74, R76). -/
inductive AsmError where
  /-- `UnrecognizedInstruction`, with the line's text (R74). -/
  | unrecognizedInstruction (text : Line)
  /-- `MalformedOperand` (R73). -/
  | malformedOperand (text : Line)
  /-- `ImageOverflow` (R76). -/
  | imageOverflow (text : Line)
  deriving DecidableEq, Repr

/-- The mnemonics in table order; the reserved boundary entry has no spelling (30_encoding.md R62, R71). -/
def asmTable : List (Line × LineShape) :=
  [(['H', 'A', 'L', 'T'], .nullary .halt),
   (['A', 'D', 'D'], .nullary .add),
   (['D', 'O', 'T'], .nullary .dot),
   (['M', 'P', 'Y'], .nullary .mpy),
   (['S', 'U', 'B'], .nullary .sub),
   (['U', 'N', 'L', 'K'], .nullary .unlk),
   (['C', 'A', 'L', 'L'], .unary .call),
   (['E', 'X', 'I', 'T'], .unary .exit),
   (['I', 'N', 'T'], .unary .int),
   (['J', 'M', 'P'], .unary .jmp),
   (['J', 'Z', 'R'], .unary .jzr),
   (['L', 'I', 'N', 'K'], .unary .link),
   (['L', 'O', 'A', 'D'], .unary .load),
   (['S', 'T', 'O', 'R', 'E'], .unary .store)]

/-- The rest of the line after the given leading characters, none when the line does not begin with them. -/
def restAfter : Line → Line → Option Line
  | [], line => some line
  | _ :: _, [] => none
  | c :: cs, d :: line => if c = d then restAfter cs line else none

/-- The first entry whose mnemonic the line begins with, and the rest of the line (30_encoding.md R71). -/
def recognise : List (Line × LineShape) → Line → Option (LineShape × Line)
  | [], _ => none
  | (mnemonic, shape) :: table, line =>
    match restAfter mnemonic line with
    | some rest => some (shape, rest)
    | none => recognise table line

/-- The value of a decimal digit: how far the character lies above `0` (30_encoding.md R73, `digit`). -/
def digitValue (c : Char) : Option Nat :=
  if '0' ≤ c ∧ c ≤ '9' then some (c.toNat - '0'.toNat) else none

/-- A character of `SEP`: a space or a tab (30_encoding.md R73). -/
def isSep (c : Char) : Bool := c == ' ' || c == '\t'

/-- `TRAIL`: only spaces, tabs and carriage returns (30_encoding.md R73). -/
def isTrail (cs : Line) : Bool := cs.all fun c => c == ' ' || c == '\t' || c == '\r'

/-- The line without its leading `SEP` characters. -/
def dropSeps : Line → Line
  | [] => []
  | c :: cs => if isSep c then dropSeps cs else c :: cs

/-- Further digits after a value, and what follows the last of them. -/
def moreDigits : Nat → Line → Nat × Line
  | n, [] => (n, [])
  | n, c :: cs =>
    match digitValue c with
    | some d => moreDigits (10 * n + d) cs
    | none => (n, c :: cs)

/-- `digit { digit }` (30_encoding.md R73). -/
def readDigits : Line → Option (Nat × Line)
  | [] => none
  | c :: cs =>
    match digitValue c with
    | some d => some (moreDigits d cs)
    | none => none

/-- `int`: an optional sign and base-10 digits (30_encoding.md R73). -/
def readInt : Line → Option (Int × Line)
  | '-' :: cs => (readDigits cs).map fun p => (-(p.1 : Int), p.2)
  | '+' :: cs => (readDigits cs).map fun p => ((p.1 : Int), p.2)
  | cs => (readDigits cs).map fun p => ((p.1 : Int), p.2)

/-- `int TRAIL` to the end of the line. -/
def plainOperand (cs : Line) : Option Int :=
  match readInt cs with
  | some (n, rest) => if isTrail rest then some n else none
  | none => none

/-- `int ")" TRAIL` to the end of the line, the opening parenthesis already read. -/
def parenOperand (cs : Line) : Option Int :=
  match readInt cs with
  | some (n, ')' :: rest) => if isTrail rest then some n else none
  | _ => none

/-- `rest` of a unary line (30_encoding.md R73). -/
def readOperand (rest : Line) : Option Int :=
  match rest with
  | [] => none
  | c :: cs =>
    if c = '(' then parenOperand cs
    else if isSep c then
      match dropSeps cs with
      | '(' :: cs => parenOperand cs
      | cs => plainOperand cs
    else none

/-- The instruction of one line, or why there is none (30_encoding.md R71 to R74). -/
def readLine (line : Line) : Except AsmError Instr :=
  match recognise asmTable line with
  | none => .error (.unrecognizedInstruction line)
  | some (.nullary i, _) => .ok i
  | some (.unary mk, rest) =>
    match readOperand rest with
    | none => .error (.malformedOperand line)
    | some n => if Fits16 n then .ok (mk n) else .error (.malformedOperand line)

/-- The spec's transcriber from a stream already begun: each line's cells are appended in source order, and the first
line that is not recognised, does not parse or does not fit refuses the source (30_encoding.md R75 to R77; log 14). -/
def transcribeFrom (codeCap : Nat) : List Word16 → List Line → Except AsmError (List Word16)
  | stream, [] => .ok stream
  | stream, line :: lines =>
    match readLine line with
    | .error e => .error e
    | .ok i =>
      if codeCap < stream.length + i.size then .error (.imageOverflow line)
      else transcribeFrom codeCap (stream ++ encode i) lines

/-- The spec's transcriber: a whole source to its image, or a refusal (30_encoding.md R77). -/
def transcribe (codeCap : Nat) (source : List Line) : Except AsmError (List Word16) :=
  transcribeFrom codeCap [] source

/-- The reference encoder on one line: an unrecognised line is reported and appends nothing (30_encoding.md R74).
The source says nothing of a malformed operand: DESIGN CHOICE, refused (log 15). -/
def referenceLine (stream : List Word16) (reports : List AsmError) (line : Line) :
    Except AsmError (List Word16 × List AsmError) :=
  match readLine line with
  | .ok i => .ok (stream ++ encode i, reports)
  | .error (.unrecognizedInstruction text) => .ok (stream, reports ++ [.unrecognizedInstruction text])
  | .error e => .error e

/-- The reference encoder from a stream already begun: it goes on after a bad line (30_encoding.md R74, R75).
What it does past `CODE_CAP` is not described by the source (R76): DESIGN CHOICE, it goes on appending and reports
nothing (log 18). -/
def referenceFrom : List Word16 → List AsmError → List Line → Except AsmError (List Word16 × List AsmError)
  | stream, reports, [] => .ok (stream, reports)
  | stream, reports, line :: lines =>
    match referenceLine stream reports line with
    | .ok (stream, reports) => referenceFrom stream reports lines
    | .error e => .error e

/-- The reference encoder on a whole source: the image and the reports (30_encoding.md R74). DESIGN CHOICE: the image
may be longer than `CODE_CAP`, on which the source says nothing (R76, 60_exceptions.md R152; log 18). -/
def referenceEncode (source : List Line) : Except AsmError (List Word16 × List AsmError) :=
  referenceFrom [] [] source

end Sys2Proof.Machine
end

