-- ==== Sys2Proof/Machine/HostPort.lean ====
section
/-! DEFINITION. The engine's transaction-level interface (10_state.md R28, R34; 70_reset_and_hazards.md R170 to R175). -/
namespace Sys2Proof.Machine

/-- The status registers the host reads (10_state.md R28). -/
inductive StatusRegister where
  | status
  | faultOpc
  | faultAddr
  deriving DecidableEq, Repr

/-- What the host can do to the engine (10_state.md R34, 70_reset_and_hazards.md R175). -/
inductive HostAction where
  | assertReset
  | releaseReset
  | clear
  | load (w : Word16)
  | step
  | writeRegister (r : StatusRegister) (v : BitVec 17)
  deriving DecidableEq, Repr

/-- What the host is told about a `load` (70_reset_and_hazards.md R172). -/
inductive LoadReply where
  /-- The cell was appended. -/
  | appended
  /-- `LEN = CODE_CAP`: refused. -/
  | refusedFull
  /-- Reset is not asserted: no effect. -/
  | ignored
  deriving DecidableEq, Repr

/-- Asserting reset: every part of the state takes its reset value, but code memory and `LEN` stay, and so do the
parameters of the launch (70_reset_and_hazards.md R170, 10_state.md R35). -/
def assertReset (s : State) : State := { State.launch s.cfg s.code with resetHeld := true }

/-- Releasing reset: the run starts at code index 0 (70_reset_and_hazards.md R173). -/
def releaseReset (s : State) : State := { s with resetHeld := false }

/-- `clear()`: empties code memory while reset is asserted, else nothing (70_reset_and_hazards.md R172). -/
def clearCode (s : State) : State := if s.resetHeld then { s with code := [] } else s

/-- What the host is told about a `load` in this state (70_reset_and_hazards.md R172). -/
def loadReply (s : State) : LoadReply :=
  if s.resetHeld then (if s.cfg.codeCap ≤ s.len then .refusedFull else .appended) else .ignored

/-- `load(w)`: appends a cell at index `LEN` while reset is asserted and `LEN < CODE_CAP`, else nothing
(70_reset_and_hazards.md R172). -/
def loadCell (s : State) (w : Word16) : State :=
  match loadReply s with
  | .appended => { s with code := s.code ++ [w] }
  | .refusedFull | .ignored => s

/-- One transaction of the host. A write of a status register has no effect (10_state.md R28). -/
def hostAct (a : HostAction) (s : State) : Answer :=
  match a with
  | .assertReset => .next (assertReset s)
  | .releaseReset => .next (releaseReset s)
  | .clear => .next (clearCode s)
  | .load w => .next (loadCell s w)
  | .step => step s
  | .writeRegister _ _ => .next s

/-- Transactions in order, up to the first that stops. -/
def hostRun : List HostAction → State → Answer
  | [], s => .next s
  | a :: as, s =>
    match hostAct a s with
    | .next t => hostRun as t
    | .fault f => .fault f
    | .refused r => .refused r

/-- The host's boot order up to the release of reset (70_reset_and_hazards.md R174, steps 1 to 4). -/
def bootActions (image : List Word16) : List HostAction :=
  [.assertReset, .clear] ++ image.map .load ++ [.releaseReset]

/-- `STATUS.RUN` (10_state.md R28). -/
def runCode : RunState → Nat
  | .running => 0
  | .halted => 1
  | .faulted => 2

/-- The cause codes, the values of `STATUS.CAUSE` (60_exceptions.md R150). -/
def causeCode : Cause → Nat
  | .noFault => 0
  | .unrecognizedOpcode => 1
  | .fetchOutOfRange => 2
  | .operandOutOfRange => 3
  | .stackOverflow => 4
  | .stackUnderflow => 5
  | .indexOutOfRange => 6
  | .spOutOfRange => 7
  | .uninitializedRead => 8

/-- `STATUS`: bits 1 to 0 `RUN`, bits 7 to 4 `CAUSE` (0 when not faulted), bit 8 `OPC_VALID`, the rest 0
(10_state.md R28). -/
def statusReg (s : State) : BitVec 16 :=
  BitVec.ofNat 16
    (runCode s.run
      + 16 * (if s.run = .faulted then causeCode s.record.cause else 0)
      + 256 * (if s.record.opcode.isSome then 1 else 0))

/-- `FAULT_OPC`: the opcode of the fault record; 0 before a fault; a free value after a fault that fetched no
opcode (10_state.md R28, R35; log 10). -/
def faultOpcReg (s : State) : Word16 :=
  match s.record.opcode with
  | some op => op
  | none => if s.run = .faulted then Config.faultOpcUnfetched s.record.addr else 0

/-- `FAULT_ADDR`: the address of the fault record as a 17-bit signed value (10_state.md R28). -/
def faultAddrReg (s : State) : BitVec 17 := BitVec.ofInt 17 s.record.addr

end Sys2Proof.Machine
end

