-- ==== Sys2Proof/Safety.lean ====
section
/-! DEFINITION. The terms claims are stated in: when a step is enabled, what a fault leaves, what every retirement
leaves, the engine's invariant, and the grammar of operand text. -/
namespace Sys2Proof.Machine

/-- A step is enabled: Running, and reset not asserted (40_cycle.md R87, 70_reset_and_hazards.md R170). -/
abbrev State.Enabled (s : State) : Prop := s.run = .running ∧ s.resetHeld = false

/-- The state a fault leaves: the state at the start of the step but for the run state and the fault record
(40_cycle.md R85, 60_exceptions.md R151). -/
def faultedAt (s : State) (c : Cause) (op : Option Word16) : State :=
  { s with run := .faulted, record := { cause := c, opcode := op, addr := s.ip } }

/-- What the retirement of any instruction `i` leaves, from `s` to `t`: no instruction writes the fault record, code
memory, the reset input or the parameters, and the trace port gains one record when tracing is on and none when it is
off (10_state.md R27, R33, 20_memory.md R41). -/
structure Retired (i : Instr) (s t : State) : Prop where
  record : t.record = s.record
  code : t.code = s.code
  resetHeld : t.resetHeld = s.resetHeld
  cfg : t.cfg = s.cfg
  trace : t.trace = s.trace ++
    (if s.cfg.traceEnabled then
      [{ addr := s.ip, opcode := i.opcode, operand := i.operand, stack := (List.range t.sp).map t.stack.read }]
    else [])

/-- `Retired`, and the run state and the output unchanged too: every instruction but `HALT` and `DOT`. -/
structure RetiredQuietly (i : Instr) (s t : State) : Prop extends Retired i s t where
  run : t.run = s.run
  output : t.output = s.output

/-- Every stack cell reads as before. -/
abbrev SameCells (s t : State) : Prop := ∀ j, t.stack.read j = s.stack.read j

/-- Every stack cell but cell `n` reads as before. -/
abbrev SameCellsBut (n : Nat) (s t : State) : Prop := ∀ j, j ≠ n → t.stack.read j = s.stack.read j

/-- The index lies in stack memory: `[0, STACK_CAP)` (20_memory.md R45). -/
abbrev InStack (s : State) (i : Int) : Prop := 0 ≤ i ∧ i < s.cfg.stackCap

/-- The engine's invariant: the ranges 10_state.md gives its registers, the canonical form of stack memory, and a
fault record that is empty until the fault it describes. -/
structure State.Inv (s : State) : Prop where
  /-- 00_scope.md R5 -/
  cfg : s.cfg.wf
  /-- `LEN <= CODE_CAP` (00_scope.md R5) -/
  len : s.len ≤ s.cfg.codeCap
  /-- `sp` in `[0, STACK_CAP]` (10_state.md R22) -/
  sp : s.sp ≤ s.cfg.stackCap
  /-- 10_state.md R23 -/
  fp : Fits16 s.fp
  /-- `ip` in `[-32768, CODE_CAP + 32767]` (10_state.md R21) -/
  ip : -32768 ≤ s.ip ∧ s.ip ≤ s.cfg.codeCap + 32767
  /-- strictly rising indices -/
  stackWf : s.stack.wf
  /-- only cells `0` to `STACK_CAP - 1` exist (10_state.md R32) -/
  stackBound : ∀ c ∈ s.stack, c.1 < s.cfg.stackCap
  /-- output events are signed 16-bit values (10_state.md R31) -/
  output : ∀ v ∈ s.output, Fits16 v
  /-- the record is written only by a fault (10_state.md R27) -/
  noRecord : s.run ≠ .faulted → s.record = .empty
  /-- a fault has a cause, and an opcode unless the opcode fetch itself faulted (10_state.md R27) -/
  recordCause : s.run = .faulted →
    s.record.cause ≠ .noFault ∧ (s.record.opcode = none ↔ s.record.cause = .fetchOutOfRange)
  /-- the record's address is the faulting instruction's index, where `ip` is left (40_cycle.md R85) -/
  recordAddr : s.run = .faulted → s.record.addr = s.ip

/-! The grammar of operand text, each production as the relation between a text and its value (30_encoding.md R73;
decision D18). -/

/-- The decimal digit characters of a list of digits. -/
def digitChars (ds : List (Fin 10)) : Line := ds.map fun d => Nat.digitChar d.val

/-- The number a list of decimal digits writes, most significant first. -/
def digitsValue (ds : List (Fin 10)) : Nat := ds.foldl (fun n d => 10 * n + d.val) 0

/-- `SEP`: one or more spaces or tabs. -/
abbrev SepText (cs : Line) : Prop := cs ≠ [] ∧ ∀ c ∈ cs, c = ' ' ∨ c = '\t'

/-- `TRAIL`: any number of spaces, tabs and carriage returns. -/
abbrev TrailText (cs : Line) : Prop := ∀ c ∈ cs, c = ' ' ∨ c = '\t' ∨ c = '\r'

/-- `int`: the text writes the integer, with a minus sign, a plus sign or none. -/
inductive IntText : Line → Int → Prop
  | unsigned {ds : List (Fin 10)} (h : ds ≠ []) : IntText (digitChars ds) (digitsValue ds)
  | minus {ds : List (Fin 10)} (h : ds ≠ []) : IntText ('-' :: digitChars ds) (-(digitsValue ds : Int))
  | plus {ds : List (Fin 10)} (h : ds ≠ []) : IntText ('+' :: digitChars ds) (digitsValue ds)

/-- `rest`: the text after a unary mnemonic writes the operand. -/
inductive RestText : Line → Int → Prop
  | plain {sep txt trail : Line} {n : Int} (hs : SepText sep) (hi : IntText txt n) (ht : TrailText trail) :
      RestText (sep ++ (txt ++ trail)) n
  | paren {txt trail : Line} {n : Int} (hi : IntText txt n) (ht : TrailText trail) :
      RestText ('(' :: (txt ++ ')' :: trail)) n
  | sepParen {sep txt trail : Line} {n : Int} (hs : SepText sep) (hi : IntText txt n) (ht : TrailText trail) :
      RestText (sep ++ '(' :: (txt ++ ')' :: trail)) n

end Sys2Proof.Machine
end

