-- ==== Sys2Proof/Certificates/Slice0/Obligations.lean ====
section
/-! DEFINITION. The statements for the provers, one definition each. `Rests on` in a docstring names what a statement
takes that is not the source's own words: D<n> is a decision of 92_eei_decisions.md and C<n> a resolution of
90_conflicts.md (both log 16), G1 the general knowledge of 93_implementation_defined.md (log 13), and `log <n>` a choice
of the model. -/

open Sys2Proof Sys2Proof.Machine

namespace Sys2Proof.Claims

/-- The opcode cell at the current `ip` is `op`. -/
abbrev OpcodeAtIp (s : State) (op : Word16) : Prop := 0 ≤ s.ip ∧ s.code[s.ip.toNat]? = some op

/-- `OPERAND_OUT_OF_RANGE` of one unary opcode: with its cell the last of the image, an enabled step faults before any
stack access, whatever the stack holds. -/
def MissingOperandFaults (op : Word16) : Prop :=
  ∀ s : State, s.Enabled → OpcodeAtIp s op → s.ip + 1 = s.len →
    step s = .next (faultedAt s .operandOutOfRange (some op))

/-- The result of one arithmetic instruction: `f` of the second popped and the first popped, wrapped to 16 bits, on top
of a stack one shorter, and nothing else changed. -/
def ArithmeticResult (i : Instr) (f : Int → Int → Int) : Prop :=
  ∀ (s : State) (lhs rhs : Word16), 2 ≤ s.sp → s.sp ≤ s.cfg.stackCap →
    s.stack.read (s.sp - 1) = some rhs → s.stack.read (s.sp - 2) = some lhs →
    ∃ t, exec i s = .next t ∧ t.ip = s.ip + 1 ∧ t.sp = s.sp - 1 ∧ t.fp = s.fp ∧
      t.stack.read (s.sp - 2) = some (word16 (wrap16 (f (sint16 lhs) (sint16 rhs)))) ∧
      SameCellsBut (s.sp - 2) s t ∧ RetiredQuietly i s t

/-- The causes an instruction can raise after it is decoded and its operand fetched. -/
def causesAfterFetch : Instr → List Cause
  | .halt | .jmp _ => []
  | .add | .sub | .mpy | .dot | .jzr _ => [.stackUnderflow, .uninitializedRead]
  | .unlk | .exit _ => [.spOutOfRange, .stackUnderflow, .uninitializedRead]
  | .call _ | .int _ => [.stackOverflow]
  | .link _ => [.stackOverflow, .spOutOfRange]
  | .load _ => [.indexOutOfRange, .uninitializedRead, .stackOverflow]
  | .store _ => [.stackUnderflow, .uninitializedRead, .indexOutOfRange]

/-- The state with the trace port switched off and its records forgotten. -/
def untraced (s : State) : State := { s with trace := [], cfg := { s.cfg with traceEnabled := false } }

/-- An outcome with the trace port's part of a next state forgotten. -/
def untracedAnswer : Answer → Answer
  | .next t => .next (untraced t)
  | .fault f => .fault f
  | .refused r => .refused r

end Sys2Proof.Claims

open Sys2Proof.Claims

/-! ## Encoding -/

/-- Decoding an encoded well-formed instruction gives it back, with the cells after it (30_encoding.md R60, R61;
opcode values by decision D1, cell width by D2). Rests on D1, D2 (log 16), G1 (log 13). -/
def Obligations.DecodeOfEncodeIsTheInstruction : Prop :=
  ∀ (i : Instr) (rest : List Word16), i.wellFormed = true → decode (encode i ++ rest) = .ok (i, rest)

/-- Whatever decodes is the encoding of a well-formed instruction: no two cell patterns mean the same instruction
(30_encoding.md R60, R61; D1, D2). Rests on D1, D2, D8 (log 16). -/
def Obligations.DecodedCellsAreTheEncoding : Prop :=
  ∀ (cells rest : List Word16) (i : Instr), decode cells = .ok (i, rest) →
    i.wellFormed = true ∧ cells = encode i ++ rest

/-- The opcode values refused as unrecognised are exactly 6 and 15 to 65535 (30_encoding.md R65; value 6 by decision
D8, numbering by D1). Rests on D1, D8 (log 16). -/
def Obligations.IllegalOpcodesAreExactlyRefused : Prop :=
  ∀ (op : Word16) (rest : List Word16),
    decode (op :: rest) = .error (.unrecognizedOpcode op) ↔ (op.toNat = 6 ∨ 15 ≤ op.toNat)

/-- The opcode cell alone fixes the length: one cell for 0 to 5, two for 7 to 14, and the immediate is the signed
value of the whole second cell (30_encoding.md R61; R64 is derived from R60 and R63). Rests on D1, D2 (log 16). -/
def Obligations.OpcodeAloneFixesTheLength : Prop :=
  ∀ op : Word16,
    (op.toNat ≤ 5 → ∃ i : Instr, i.operand = none ∧ ∀ rest, decode (op :: rest) = .ok (i, rest)) ∧
    (7 ≤ op.toNat → op.toNat ≤ 14 →
      decode [op] = .error (.noOperand op) ∧
      ∃ mk : Int → Instr, ∀ (w : Word16) (rest : List Word16),
        (mk (sint16 w)).operand = some (sint16 w) ∧ decode (op :: w :: rest) = .ok (mk (sint16 w), rest))

/-- Every row of the opcode map decodes as the map gives it, the numbers written out, with any operand cell; and a few
whole words written out (30_encoding.md R61, R62, R73; values by decision D1). Rests on D1, D8 (log 16), G1 (log 13). -/
def Obligations.SampleWordsOfTheMapDecode : Prop :=
  (∀ rest : List Word16,
    decode (0x0000 :: rest) = .ok (.halt, rest) ∧ decode (0x0001 :: rest) = .ok (.add, rest) ∧
    decode (0x0002 :: rest) = .ok (.dot, rest) ∧ decode (0x0003 :: rest) = .ok (.mpy, rest) ∧
    decode (0x0004 :: rest) = .ok (.sub, rest) ∧ decode (0x0005 :: rest) = .ok (.unlk, rest)) ∧
  (∀ (w : Word16) (rest : List Word16),
    decode (0x0007 :: w :: rest) = .ok (.call (sint16 w), rest) ∧
    decode (0x0008 :: w :: rest) = .ok (.exit (sint16 w), rest) ∧
    decode (0x0009 :: w :: rest) = .ok (.int (sint16 w), rest) ∧
    decode (0x000A :: w :: rest) = .ok (.jmp (sint16 w), rest) ∧
    decode (0x000B :: w :: rest) = .ok (.jzr (sint16 w), rest) ∧
    decode (0x000C :: w :: rest) = .ok (.link (sint16 w), rest) ∧
    decode (0x000D :: w :: rest) = .ok (.load (sint16 w), rest) ∧
    decode (0x000E :: w :: rest) = .ok (.store (sint16 w), rest)) ∧
  decode [0x0009, 0xFFFC] = .ok (.int (-4), []) ∧
  decode [0x000A, 0xFFFE, 0x0000] = .ok (.jmp (-2), [0x0000]) ∧
  decode [0x000D, 0x8000] = .ok (.load (-32768), []) ∧
  decode [0x000E, 0x7FFF] = .ok (.store 32767, []) ∧
  decode [0x0006, 0x0000] = .error (.unrecognizedOpcode 0x0006)

/-- `sint16` and `word16` are inverse between cells and `[-32768, 32767]` (00_scope.md R7; two's complement is the
spec's general knowledge G1, log 13). Rests on G1 (log 13). -/
def Obligations.SignedReadingOfCellsIsExact : Prop :=
  (∀ w : Word16, Fits16 (sint16 w) ∧ word16 (sint16 w) = w) ∧
  (∀ v : Int, Fits16 v → sint16 (word16 v) = v)

/-- `wrap16` is the residue modulo 65536 in signed range, and the bits of a wrapped sum, difference or product are the
same whether the operands are read as signed or unsigned (42_arithmetic.md R103; decision D4). Rests on D4 (log 16),
G1 (log 13). -/
def Obligations.WrappedBitsIgnoreSignedness : Prop :=
  (∀ v : Int, Fits16 (wrap16 v) ∧ (wrap16 v - v) % 65536 = 0) ∧
  (∀ a b : Word16,
    word16 (wrap16 (sint16 a + sint16 b)) = BitVec.ofNat 16 (a.toNat + b.toNat) ∧
    word16 (wrap16 (sint16 a - sint16 b)) = BitVec.ofNat 16 (a.toNat + 65536 - b.toNat) ∧
    word16 (wrap16 (sint16 a * sint16 b)) = BitVec.ofNat 16 (a.toNat * b.toNat))

/-! ## The cycle -/

/-- An enabled step whose cells at `ip` decode to an instruction is exactly that instruction's execution, nothing
around it: the movement of `ip` past the cells is in `exec` (40_cycle.md R80, R81, R84). Rests on log 6, 8. -/
def Obligations.StepRunsTheDecodedInstruction : Prop :=
  ∀ (s : State) (i : Instr) (rest : List Word16), s.Enabled → 0 ≤ s.ip →
    decode (s.code.drop s.ip.toNat) = .ok (i, rest) → step s = exec i s

/-- An opcode fetch outside the image faults and records no opcode (40_cycle.md R81; the check is decision D7, the
precise state decision D9). Rests on D7, D9 (log 16); log 6. -/
def Obligations.FetchOutsideTheImageFaults : Prop :=
  ∀ s : State, s.Enabled → (s.ip < 0 ∨ (s.len : Int) ≤ s.ip) →
    step s = .next (faultedAt s .fetchOutOfRange none)

/-- Opcode values 6 and 15 to 65535 fault with `ip` left at the faulting cell and the opcode recorded (40_cycle.md
R84; value 6 by decision D8, the precise state by D9). Rests on D1, D8, D9 (log 16); log 6. -/
def Obligations.UnrecognizedOpcodeFaults : Prop :=
  ∀ (s : State) (op : Word16), s.Enabled → OpcodeAtIp s op → (op.toNat = 6 ∨ 15 ≤ op.toNat) →
    step s = .next (faultedAt s .unrecognizedOpcode (some op))

/-- Every unary opcode in the last image cell faults before any stack access (40_cycle.md R83; decisions D7, D28).
Rests on D1, D7, D9, D28 (log 16); log 6. -/
def Obligations.UnaryOpcodeAtTheEndFaults : Prop :=
  ∀ op : Word16, 7 ≤ op.toNat → op.toNat ≤ 14 → MissingOperandFaults op

/-- In Halted and in Faulted there is no step, and no action of the host but reset changes the run state
(40_cycle.md R87). -/
def Obligations.TerminalStatesLeftOnlyByReset : Prop :=
  ∀ s : State, (s.run = .halted ∨ s.run = .faulted) →
    (∀ t, step s ≠ .next t) ∧
    (∀ a t, hostAct a s = .next t → a ≠ .assertReset → t.run = s.run)

/-- No step runs while reset is asserted (70_reset_and_hazards.md R170; the reset input as a field is log 6). Rests on
D29 (log 16); log 5, 6. -/
def Obligations.NoStepWhileResetIsAsserted : Prop :=
  ∀ s : State, s.resetHeld = true → ∀ t, step s ≠ .next t

/-- Every enabled step answers a next state, and either retires, leaving the fault record alone, or faults precisely:
only the run state and the record differ, the record names a cause, the step's `ip`, and the opcode cell fetched
there, none exactly when the opcode fetch itself faulted (40_cycle.md R80, R85; 60_exceptions.md R151; decision D9).
Rests on D9 (log 16); log 6. -/
def Obligations.EnabledStepRetiresOrFaultsPrecisely : Prop :=
  ∀ s : State, s.Enabled → ∃ t, step s = .next t ∧
    ((t.run ≠ .faulted ∧ t.record = s.record) ∨
      ∃ c op, t = faultedAt s c op ∧ c ≠ .noFault ∧ (op = none ↔ c = .fetchOutOfRange) ∧
        (∀ o, op = some o → OpcodeAtIp s o))

/-- Every step keeps the engine's invariant: `sp`, `fp`, `ip`, the image and the output in range, stack memory in
canonical form within its capacity, the fault record empty until a fault and describing it after (10_state.md R21,
R22, R23, R27, R31, R32). The ranges of `ip` and `fp` are derived there, the check of `sp` is decision D5, and the
canonical form is the model's own (log 4). Rests on D3, D5, D13, D25 (log 16); log 2, 4. -/
def Obligations.StepKeepsTheEngineInvariant : Prop :=
  ∀ s t : State, s.Inv → step s = .next t → t.Inv

/-- The state after reset meets the invariant, and so does any launch within the capacities (10_state.md R35,
00_scope.md R5). Rests on D3, D6, D16 (log 16); log 1. -/
def Obligations.ResetMeetsTheEngineInvariant : Prop :=
  State.reset.Inv ∧
  ∀ (cfg : Config) (image : List Word16), cfg.wf → image.length ≤ cfg.codeCap → (State.launch cfg image).Inv

/-- A run halts exactly by fetching the cell `0x0000` as an opcode (10_state.md R26, 41_halt.md R90; opcode value by
decision D1). Rests on D1 (log 16). -/
def Obligations.OnlyTheHaltCellHalts : Prop :=
  ∀ s t : State, step s = .next t → (t.run = .halted ↔ OpcodeAtIp s 0x0000)

/-- The output grows only by `DOT`, by one event, the signed value of the top cell (10_state.md R31; opcode value by
decision D1). Rests on D1, D25 (log 16). -/
def Obligations.OnlyDotEmits : Prop :=
  ∀ s t : State, step s = .next t → t.output ≠ s.output →
    OpcodeAtIp s 0x0002 ∧
    ∃ x, 0 < s.sp ∧ s.stack.read (s.sp - 1) = some x ∧ t.output = s.output ++ [sint16 x]

/-- Only `UNLK` (5) and `LINK` (12) change `fp` (10_state.md R23, R24; opcode values by decision D1). Rests on D1 (log
16). -/
def Obligations.OnlyLinkAndUnlkChangeFp : Prop :=
  ∀ s t : State, step s = .next t → t.fp ≠ s.fp → OpcodeAtIp s 0x0005 ∨ OpcodeAtIp s 0x000C

/-- A step changes at most one stack cell: the second of two for `ADD`, `SUB`, `MPY`, the cell at `sp` for `CALL`,
`INT`, `LINK`, `LOAD`, and the cell at `fp + k` for `STORE k` (20_memory.md R47, R48; R50 is derived; opcode values by
decision D1). Rests on D1, D13, D27 (log 16). -/
def Obligations.StackCellsChangeOnlyByPushAndStore : Prop :=
  ∀ (s t : State) (n : Nat), step s = .next t → t.stack.read n ≠ s.stack.read n →
    ((OpcodeAtIp s 0x0001 ∨ OpcodeAtIp s 0x0003 ∨ OpcodeAtIp s 0x0004) ∧ n + 2 = s.sp) ∨
    ((OpcodeAtIp s 0x0007 ∨ OpcodeAtIp s 0x0009 ∨ OpcodeAtIp s 0x000C ∨ OpcodeAtIp s 0x000D) ∧ n = s.sp) ∨
    (OpcodeAtIp s 0x000E ∧ ∃ k, s.code[s.ip.toNat + 1]? = some k ∧ (n : Int) = s.fp + sint16 k)

/-- The trace port is an observer: a step of the engine with tracing off and the records forgotten gives the same
outcome, the trace apart (10_state.md R33; decision D17; the held records are log 7). Rests on D17 (log 16); log 1, 7. -/
def Obligations.TraceChangesNothingElse : Prop :=
  ∀ s : State, step (untraced s) = untracedAnswer (step s)

/-- With tracing on, a retired instruction, `HALT` included, produces exactly one record, of its index, opcode cell,
signed immediate and the stack after it, and a faulting one none (10_state.md R33; decision D17; log 7). Rests on D17
(log 16); log 7. -/
def Obligations.TraceRecordsExactlyTheRetired : Prop :=
  ∀ s t : State, step s = .next t → s.cfg.traceEnabled = true →
    (t.run = .faulted → t.trace = s.trace) ∧
    (t.run ≠ .faulted → ∃ i rest, decode (s.code.drop s.ip.toNat) = .ok (i, rest) ∧ OpcodeAtIp s i.opcode ∧
      t.trace = s.trace ++ [{ addr := s.ip, opcode := i.opcode, operand := i.operand,
                              stack := (List.range t.sp).map t.stack.read }])

/-- Every instruction answers a next state in every state, and where it faults, with `sp` in its range, the cause is
one that the table of R153 lists for it after the operand fetch (60_exceptions.md R153, derived there; decisions D5,
D6). Rests on D5, D6, D12 (log 16). -/
def Obligations.FaultCausesOfEachInstruction : Prop :=
  ∀ (i : Instr) (s : State), ∃ t, exec i s = .next t ∧
    (s.sp ≤ s.cfg.stackCap → s.run ≠ .faulted → t.run = .faulted → t.record.cause ∈ causesAfterFetch i)

/-! ## HALT -/

/-- `HALT` stops the run successfully: `ip` is `a + 1`, nothing else changes, it raises nothing, the trace has its
record, and no step follows (41_halt.md R90). Rests on D1, D17 (log 16); log 1, 5, 6, 7. -/
def Obligations.HaltStopsTheRun : Prop :=
  encode .halt = [0x0000] ∧
  ∀ s : State, ∃ t, exec .halt s = .next t ∧ t.run = .halted ∧ t.ip = s.ip + 1 ∧ t.sp = s.sp ∧ t.fp = s.fp ∧
    SameCells s t ∧ t.output = s.output ∧ Retired .halt s t ∧ (∀ u, step t ≠ .next u)

/-! ## ADD, SUB, MPY -/

/-- `ADD`, `SUB` (second popped minus first popped) and `MPY` push the wrapped result, the popped top cell keeps its
value, and nothing else changes (42_arithmetic.md R100, R101, R102; wraparound is decision D4). Rests on D4, D17 (log
16); log 1, 6, 7. -/
def Obligations.ArithmeticPushesTheWrappedResult : Prop :=
  ArithmeticResult .add (fun lhs rhs => lhs + rhs) ∧
  ArithmeticResult .sub (fun lhs rhs => lhs - rhs) ∧
  ArithmeticResult .mpy (fun lhs rhs => lhs * rhs)

/-- The faults of `ADD`, `SUB` and `MPY` in their order: underflow or an unwritten cell at the first pop, then at the
second (42_arithmetic.md R100; decisions D5, D6, D9). Rests on D5, D6, D9, D28 (log 16). -/
def Obligations.ArithmeticFaultsInPopOrder : Prop :=
  ∀ i : Instr, (i = .add ∨ i = .sub ∨ i = .mpy) → ∀ s : State,
    (s.sp = 0 → exec i s = .next (faultedAt s .stackUnderflow (some i.opcode))) ∧
    (0 < s.sp → s.stack.read (s.sp - 1) = none →
      exec i s = .next (faultedAt s .uninitializedRead (some i.opcode))) ∧
    (∀ x, s.sp = 1 → s.stack.read 0 = some x →
      exec i s = .next (faultedAt s .stackUnderflow (some i.opcode))) ∧
    (∀ x, 1 < s.sp → s.stack.read (s.sp - 1) = some x → s.stack.read (s.sp - 2) = none →
      exec i s = .next (faultedAt s .uninitializedRead (some i.opcode)))

/-! ## DOT, INT -/

/-- `DOT` pops the top and appends its signed value to the output; on an empty stack or an unwritten top it faults and
emits nothing, and no other instruction touches the output (43_stack_output.md R110; the faults are decisions D5, D6,
the precise state D9, log 16). Rests on D1, D5, D6, D9, D17, D25 (log 16); log 1, 6, 7. -/
def Obligations.DotEmitsTheTop : Prop :=
  encode .dot = [0x0002] ∧
  ∀ s : State,
    (∀ x, 0 < s.sp → s.stack.read (s.sp - 1) = some x →
      ∃ t, exec .dot s = .next t ∧ t.output = s.output ++ [sint16 x] ∧ t.sp = s.sp - 1 ∧ t.ip = s.ip + 1 ∧
        t.fp = s.fp ∧ t.run = s.run ∧ SameCells s t ∧ Retired .dot s t) ∧
    (s.sp = 0 → exec .dot s = .next (faultedAt s .stackUnderflow (some 0x0002))) ∧
    (0 < s.sp → s.stack.read (s.sp - 1) = none →
      exec .dot s = .next (faultedAt s .uninitializedRead (some 0x0002))) ∧
    (∀ i t, i ≠ .dot → exec i s = .next t → t.output = s.output)

/-- `INT k` pushes the literal; without an operand cell it faults first, on a full stack it overflows
(43_stack_output.md R111; the missing operand is decisions D7, D28, the overflow D5, the precise state D9, log 16).
Rests on D1, D5, D7, D9, D17, D28 (log 16); log 1, 6, 7. -/
def Obligations.IntPushesTheLiteral : Prop :=
  MissingOperandFaults 0x0009 ∧
  ∀ k : Int, Fits16 k →
    encode (.int k) = [0x0009, word16 k] ∧ sint16 (word16 k) = k ∧
    ∀ s : State,
      (s.sp < s.cfg.stackCap →
        ∃ t, exec (.int k) s = .next t ∧ t.sp = s.sp + 1 ∧ t.stack.read s.sp = some (word16 k) ∧ t.ip = s.ip + 2 ∧
          t.fp = s.fp ∧ SameCellsBut s.sp s t ∧ RetiredQuietly (.int k) s t) ∧
      (s.cfg.stackCap ≤ s.sp → exec (.int k) s = .next (faultedAt s .stackOverflow (some 0x0009)))

/-! ## LOAD, STORE, LINK, UNLK -/

/-- `LOAD k` pushes the cell at `fp + k`, wherever it lies in stack memory, above the top included, and raises in
order a missing operand, an index outside stack memory, an unwritten cell, a full stack (44_frame.md R120; the faults
are decisions D5, D6, D7, their precise state D9, the exact index D13, cells above `sp` D27, log 16). Rests on D1, D5,
D6, D7, D9, D13, D17, D27, D28 (log 16); log 1, 6, 7. -/
def Obligations.LoadPushesTheFrameCell : Prop :=
  MissingOperandFaults 0x000D ∧
  ∀ k : Int, Fits16 k →
    encode (.load k) = [0x000D, word16 k] ∧
    ∀ s : State,
      (∀ v, InStack s (s.fp + k) → s.stack.read (s.fp + k).toNat = some v → s.sp < s.cfg.stackCap →
        ∃ t, exec (.load k) s = .next t ∧ t.sp = s.sp + 1 ∧ t.stack.read s.sp = some v ∧ t.ip = s.ip + 2 ∧
          t.fp = s.fp ∧ SameCellsBut s.sp s t ∧ RetiredQuietly (.load k) s t) ∧
      (¬ InStack s (s.fp + k) → exec (.load k) s = .next (faultedAt s .indexOutOfRange (some 0x000D))) ∧
      (InStack s (s.fp + k) → s.stack.read (s.fp + k).toNat = none →
        exec (.load k) s = .next (faultedAt s .uninitializedRead (some 0x000D))) ∧
      (∀ v, InStack s (s.fp + k) → s.stack.read (s.fp + k).toNat = some v → s.cfg.stackCap ≤ s.sp →
        exec (.load k) s = .next (faultedAt s .stackOverflow (some 0x000D)))

/-- `STORE k` pops and writes the cell at `fp + k`; `sp` falls by one whatever the index, and the faults come in
order: a missing operand, an empty stack, an unwritten top, an index outside stack memory (44_frame.md R121; the
faults are decisions D5, D6, D7, their precise state D9, the exact index D13, cells above `sp` D27, log 16). Rests on
D1, D5, D6, D7, D9, D13, D17, D27, D28 (log 16); log 1, 6, 7. -/
def Obligations.StoreWritesTheFrameCell : Prop :=
  MissingOperandFaults 0x000E ∧
  ∀ k : Int, Fits16 k →
    encode (.store k) = [0x000E, word16 k] ∧
    ∀ s : State,
      (∀ x, 0 < s.sp → s.stack.read (s.sp - 1) = some x → InStack s (s.fp + k) →
        ∃ t, exec (.store k) s = .next t ∧ t.sp = s.sp - 1 ∧ t.stack.read (s.fp + k).toNat = some x ∧
          t.ip = s.ip + 2 ∧ t.fp = s.fp ∧ SameCellsBut (s.fp + k).toNat s t ∧ RetiredQuietly (.store k) s t) ∧
      (s.sp = 0 → exec (.store k) s = .next (faultedAt s .stackUnderflow (some 0x000E))) ∧
      (0 < s.sp → s.stack.read (s.sp - 1) = none →
        exec (.store k) s = .next (faultedAt s .uninitializedRead (some 0x000E))) ∧
      (∀ x, 0 < s.sp → s.stack.read (s.sp - 1) = some x → ¬ InStack s (s.fp + k) →
        exec (.store k) s = .next (faultedAt s .indexOutOfRange (some 0x000E)))

/-- `LINK k` writes the old `fp` at the old `sp`, points `fp` there, and moves `sp` to `s + 1 + k` without writing the
reserved cells; a negative `k` is not refused (44_frame.md R122; decisions D5, D12 for the range of `sp`). Rests on
C1, D5, D12, D13, D17 (log 16); log 1, 6, 7, 9. -/
def Obligations.LinkOpensTheFrame : Prop :=
  ∀ (k : Int) (s : State), s.sp < s.cfg.stackCap → 0 ≤ (s.sp : Int) + 1 + k → (s.sp : Int) + 1 + k ≤ s.cfg.stackCap →
    ∃ t, exec (.link k) s = .next t ∧ t.stack.read s.sp = some (word16 s.fp) ∧ (Fits16 s.fp → sint16 (word16 s.fp) = s.fp) ∧
      t.fp = s.sp ∧ (t.sp : Int) = s.sp + 1 + k ∧ t.ip = s.ip + 2 ∧
      SameCellsBut s.sp s t ∧ RetiredQuietly (.link k) s t

/-- `LINK` on a full stack overflows before the new `sp` is looked at; a new `sp` outside `[0, STACK_CAP]` faults and
undoes the push (44_frame.md R122; decisions D5, D9, D12, D28). Rests on D1, D5, D9, D12, D28 (log 16). -/
def Obligations.LinkFaultsInOrder : Prop :=
  ∀ (k : Int) (s : State),
    (s.cfg.stackCap ≤ s.sp → exec (.link k) s = .next (faultedAt s .stackOverflow (some 0x000C))) ∧
    (s.sp < s.cfg.stackCap → ((s.sp : Int) + 1 + k < 0 ∨ (s.cfg.stackCap : Int) < s.sp + 1 + k) →
      exec (.link k) s = .next (faultedAt s .spOutOfRange (some 0x000C)))

/-- `UNLK` leaves `sp` at the old `fp` and restores `fp` from the cell there, writing no cell (44_frame.md R123).
Rests on C2, D5, D6, D13, D17 (log 16); log 1, 6, 7. -/
def Obligations.UnlkClosesTheFrame : Prop :=
  ∀ (s : State) (v : Word16), InStack s s.fp → s.stack.read s.fp.toNat = some v →
    ∃ t, exec .unlk s = .next t ∧ (t.sp : Int) = s.fp ∧ t.fp = sint16 v ∧ t.ip = s.ip + 1 ∧
      SameCells s t ∧ RetiredQuietly .unlk s t

/-- The faults of `UNLK`: `fp` below -1 or at `STACK_CAP` and above, `fp = -1`, an unwritten saved-fp cell
(44_frame.md R123; decisions D5, D6, D9). Rests on D1, D5, D6, D9, D28 (log 16). -/
def Obligations.UnlkFaultsInOrder : Prop :=
  ∀ s : State,
    ((s.fp < -1 ∨ (s.cfg.stackCap : Int) ≤ s.fp) →
      exec .unlk s = .next (faultedAt s .spOutOfRange (some 0x0005))) ∧
    (s.fp = -1 → exec .unlk s = .next (faultedAt s .stackUnderflow (some 0x0005))) ∧
    (InStack s s.fp → s.stack.read s.fp.toNat = none →
      exec .unlk s = .next (faultedAt s .uninitializedRead (some 0x0005)))

/-- A `LINK`/`UNLK` pair is stack-neutral: if `LINK k` retires from `s`, then `UNLK` from any state of the launch with
`fp` at the saved cell and that cell unchanged restores both `fp` and `sp` of `s`; the state right after `LINK` is
such a state (44_frame.md R125, derived there; 90_conflicts.md C1, C2). Rests on C1, C2, D12 (log 16). -/
def Obligations.LinkThenUnlkRestoresFrame : Prop :=
  ∀ (k : Int) (s t : State), Fits16 s.fp → s.run ≠ .faulted → exec (.link k) s = .next t → t.run ≠ .faulted →
    (t.fp = s.sp ∧ t.stack.read s.sp = some (word16 s.fp) ∧ t.cfg = s.cfg) ∧
    ∀ u : State, u.cfg = s.cfg → u.fp = s.sp → u.stack.read s.sp = some (word16 s.fp) →
      ∃ v, exec .unlk u = .next v ∧ v.run = u.run ∧ v.fp = s.fp ∧ v.sp = s.sp ∧ SameCells u v

/-! ## CALL, EXIT, JZR, JMP -/

/-- `CALL t` pushes `a + 2` and jumps to `t` unchecked: a target outside the image is not its fault but the next
step's. Its own faults are a missing operand, then a full stack (45_control.md R130; the return address is
90_conflicts.md C3, the unchecked target decision D11, the missing operand D7, D28, the overflow D5, the precise state
D9, log 16). Rests on C3, D1, D5, D7, D9, D11, D17, D28 (log 16); log 1, 6, 7, 9. -/
def Obligations.CallPushesTheReturnAddress : Prop :=
  MissingOperandFaults 0x0007 ∧
  ∀ tgt : Int, Fits16 tgt →
    encode (.call tgt) = [0x0007, word16 tgt] ∧
    ∀ s : State,
      (s.sp < s.cfg.stackCap →
        ∃ t, exec (.call tgt) s = .next t ∧ t.ip = tgt ∧ t.sp = s.sp + 1 ∧ t.fp = s.fp ∧
          t.stack.read s.sp = some (word16 (s.ip + 2)) ∧
          (s.Inv → 0 ≤ s.ip → s.ip + 2 ≤ s.len → sint16 (word16 (s.ip + 2)) = s.ip + 2) ∧
          SameCellsBut s.sp s t ∧ RetiredQuietly (.call tgt) s t ∧
          (s.Enabled → (tgt < 0 ∨ (s.len : Int) ≤ tgt) →
            step t = .next (faultedAt t .fetchOutOfRange none))) ∧
      (s.cfg.stackCap ≤ s.sp → exec (.call tgt) s = .next (faultedAt s .stackOverflow (some 0x0007)))

/-- `EXIT k` under the default `EXIT_ORDER = DropThenPop`: lower `sp` by `k`, then pop into `ip`; and its faults in
order (45_control.md R131; the order is decision D10 of conflict C4, the faults D5, D6). Rests on C4, D1, D5, D6, D9,
D10, D11, D12, D13, D17, D28 (log 16); log 1, 6, 7. -/
def Obligations.ExitDropsThenPops : Prop :=
  ∀ (k : Int) (s : State), s.cfg.exitOrder = .dropThenPop →
    (∀ r, 0 < (s.sp : Int) - k → (s.sp : Int) - k ≤ s.cfg.stackCap →
      s.stack.read ((s.sp : Int) - k - 1).toNat = some r →
      ∃ t, exec (.exit k) s = .next t ∧ t.ip = sint16 r ∧ (t.sp : Int) = s.sp - k - 1 ∧ t.fp = s.fp ∧
        SameCells s t ∧ RetiredQuietly (.exit k) s t) ∧
    (((s.sp : Int) - k < 0 ∨ (s.cfg.stackCap : Int) < s.sp - k) →
      exec (.exit k) s = .next (faultedAt s .spOutOfRange (some 0x0008))) ∧
    ((s.sp : Int) - k = 0 → exec (.exit k) s = .next (faultedAt s .stackUnderflow (some 0x0008))) ∧
    (0 < (s.sp : Int) - k → (s.sp : Int) - k ≤ s.cfg.stackCap →
      s.stack.read ((s.sp : Int) - k - 1).toNat = none →
      exec (.exit k) s = .next (faultedAt s .uninitializedRead (some 0x0008)))

/-- `EXIT k` under `EXIT_ORDER = PopThenDrop`: pop the return address, then lower `sp` by `k`; and its faults in order
(45_control.md R131, the alternative a model may select; decisions D10, D5, D6). Rests on C4, D1, D5, D6, D9, D10,
D11, D12, D13, D17, D28 (log 16); log 1, 6, 7. -/
def Obligations.ExitPopsThenDrops : Prop :=
  ∀ (k : Int) (s : State), s.cfg.exitOrder = .popThenDrop →
    (∀ r, 0 < s.sp → s.stack.read (s.sp - 1) = some r →
      0 ≤ (s.sp : Int) - 1 - k → (s.sp : Int) - 1 - k ≤ s.cfg.stackCap →
      ∃ t, exec (.exit k) s = .next t ∧ t.ip = sint16 r ∧ (t.sp : Int) = s.sp - 1 - k ∧ t.fp = s.fp ∧
        SameCells s t ∧ RetiredQuietly (.exit k) s t) ∧
    (s.sp = 0 → exec (.exit k) s = .next (faultedAt s .stackUnderflow (some 0x0008))) ∧
    (0 < s.sp → s.stack.read (s.sp - 1) = none →
      exec (.exit k) s = .next (faultedAt s .uninitializedRead (some 0x0008))) ∧
    (∀ r, 0 < s.sp → s.stack.read (s.sp - 1) = some r →
      ((s.sp : Int) - 1 - k < 0 ∨ (s.cfg.stackCap : Int) < s.sp - 1 - k) →
      exec (.exit k) s = .next (faultedAt s .spOutOfRange (some 0x0008)))

/-- `EXIT 0` is the same under both orders: the same registers, memories, output, run state and fault record
(45_control.md R131, corner cases). Rests on C4, D10 (log 16); log 1. -/
def Obligations.ExitZeroIgnoresTheOrder : Prop :=
  ∀ (s : State) (order : ExitOrder), s.sp ≤ s.cfg.stackCap →
    ∃ t u, exec (.exit 0) s = .next t ∧
      exec (.exit 0) { s with cfg := { s.cfg with exitOrder := order } } = .next u ∧
      u = { t with cfg := { t.cfg with exitOrder := order } }

/-- A call whose return address is on top again when `EXIT 0` runs resumes at the cell after the `CALL`'s operand,
with `sp` as before the call, under either order (45_control.md R130, R135; 90_conflicts.md C3; R135 is derived).
Rests on C3, D10 (log 16). -/
def Obligations.CallThenExitZeroResumes : Prop :=
  ∀ (tgt : Int) (s t : State), s.Inv → s.run ≠ .faulted → 0 ≤ s.ip → s.ip + 2 ≤ s.len →
    exec (.call tgt) s = .next t → t.run ≠ .faulted →
    ∀ u : State, u.cfg = s.cfg → u.sp = s.sp + 1 → u.stack.read s.sp = t.stack.read s.sp →
      ∃ v, exec (.exit 0) u = .next v ∧ v.ip = s.ip + 2 ∧ v.sp = s.sp ∧ v.fp = u.fp ∧ v.run = u.run ∧ SameCells u v

/-- The frame a callee sees after `CALL` and `LINK m`: the saved `fp` at `fp`, the return address at `fp - 1`, the
caller's cells, last argument first, from `fp - 2` down (44_frame.md R125, derived there). Rests on C1, C3 (log 16);
log 9. -/
def Obligations.CallThenLinkLaysOutTheFrame : Prop :=
  ∀ (tgt m : Int) (s t u : State), s.run ≠ .faulted → exec (.call tgt) s = .next t → t.run ≠ .faulted →
    exec (.link m) t = .next u → u.run ≠ .faulted →
    u.fp = s.sp + 1 ∧ u.stack.read (s.sp + 1) = some (word16 s.fp) ∧
    u.stack.read s.sp = some (word16 (s.ip + 2)) ∧
    (∀ j : Nat, 1 ≤ j → j ≤ s.sp → u.stack.read (u.fp - 1 - j).toNat = s.stack.read (s.sp - j))

/-- `JZR off` pops whether or not it jumps; a zero goes to `a + 2 + off`, computed exactly, anything else to `a + 2`;
its faults in order (45_control.md R132; the target formula is derived there, conflict C5; faults D5, D6). Rests on
C5, D1, D5, D6, D9, D11, D13, D17, D28 (log 16); log 1, 6, 7. -/
def Obligations.JzrJumpsExactlyOnZero : Prop :=
  ∀ (off : Int) (s : State),
    (∀ x, 0 < s.sp → s.stack.read (s.sp - 1) = some x →
      ∃ t, exec (.jzr off) s = .next t ∧ t.ip = (if sint16 x = 0 then s.ip + 2 + off else s.ip + 2) ∧
        t.sp = s.sp - 1 ∧ t.fp = s.fp ∧ SameCells s t ∧ RetiredQuietly (.jzr off) s t) ∧
    (s.sp = 0 → exec (.jzr off) s = .next (faultedAt s .stackUnderflow (some 0x000B))) ∧
    (0 < s.sp → s.stack.read (s.sp - 1) = none →
      exec (.jzr off) s = .next (faultedAt s .uninitializedRead (some 0x000B)))

/-- `JMP off` goes to `a + 2 + off`, computed exactly, and touches nothing else; it always retires (45_control.md
R133; the target formula is derived there). Rests on C5, D11, D13, D17 (log 16); log 1, 6, 7. -/
def Obligations.JmpJumpsRelative : Prop :=
  ∀ (off : Int) (s : State), ∃ t, exec (.jmp off) s = .next t ∧ t.ip = s.ip + 2 + off ∧ t.sp = s.sp ∧ t.fp = s.fp ∧
    SameCells s t ∧ RetiredQuietly (.jmp off) s t

/-- `JMP -2` jumps to itself: however many steps are run, none stops and nothing changes but the trace port's records,
and with tracing off nothing at all (45_control.md R133, 40_cycle.md R89; decisions D17, D26; the held records are log
7). Rests on C5, D1, D13, D17, D26 (log 16), G1 (log 13); log 1, 7. -/
def Obligations.JmpMinusTwoLoopsForever : Prop :=
  ∀ (s : State) (rest : List Word16), s.Enabled → 0 ≤ s.ip → s.code.drop s.ip.toNat = 0x000A :: 0xFFFE :: rest →
    ∀ n, ∃ t, core.run n s = .next t ∧ untraced t = untraced s ∧ (s.cfg.traceEnabled = false → t = s)

/-! ## Stack memory -/

/-- The indexed write: outside `[0, STACK_CAP)` it faults; inside it sets that one cell, changes no register whatever
the index is relative to `sp`, and a read returns the value (20_memory.md R46, R47; the fault outside is decision D5,
an index at or above `sp` decision D27, log 16). Rests on D5, D27 (log 16). -/
def Obligations.MemWriteSetsExactlyOneCell : Prop :=
  ∀ (s : State) (i : Int) (v : Word16),
    (¬ InStack s i → memWrite s i v = .error .indexOutOfRange) ∧
    (InStack s i → ∃ t, memWrite s i v = .ok t ∧ t.stack.read i.toNat = some v ∧ memRead t i = .ok v ∧
      SameCellsBut i.toNat s t ∧ t.ip = s.ip ∧ t.sp = s.sp ∧ t.fp = s.fp ∧ t.run = s.run ∧ t.record = s.record ∧
      t.code = s.code ∧ t.output = s.output ∧ t.trace = s.trace ∧ t.resetHeld = s.resetHeld ∧ t.cfg = s.cfg)

/-! ## Reset and the host -/

/-- The reset values: registers 0 and Running are the source's; the empty fault record, stack memory and output are
decisions D6 and D16; no image, no trace records, reset released and the default parameters are the model's (log 1, 6,
7, 11) (10_state.md R35, 70_reset_and_hazards.md R171). Rests on D6, D16, D24 (log 16); log 1, 6, 7, 11. -/
def Obligations.ResetValuesOfTheState : Prop :=
  State.reset.ip = 0 ∧ State.reset.sp = 0 ∧ State.reset.fp = 0 ∧ State.reset.run = .running ∧
  State.reset.record = { cause := .noFault, opcode := none, addr := 0 } ∧ State.reset.len = 0 ∧
  (∀ i, State.reset.stack.read i = none) ∧ State.reset.output = [] ∧ State.reset.trace = [] ∧
  State.reset.resetHeld = false ∧
  State.reset.cfg = { codeCap := 1024, stackCap := 1024, exitOrder := .dropThenPop, traceEnabled := false } ∧
  statusReg State.reset = 0x0000 ∧ faultOpcReg State.reset = 0x0000 ∧ faultAddrReg State.reset = 0

/-- Asserting reset from any state gives the reset values, keeps the image and the parameters, and no step runs until
release (70_reset_and_hazards.md R170; decisions D15, D16). The model's own choices in it: the parameters stay (log
1), the reset input is a field (log 6), and the trace is empty after reset (log 7), which the last clause also says.
Rests on D15, D16, D29 (log 16); log 1, 5, 6, 7. -/
def Obligations.AssertResetKeepsOnlyTheImage : Prop :=
  ∀ s : State, ∃ t, hostAct .assertReset s = .next t ∧ t.ip = 0 ∧ t.sp = 0 ∧ t.fp = 0 ∧ t.run = .running ∧
    t.record = { cause := .noFault, opcode := none, addr := 0 } ∧ (∀ i, t.stack.read i = none) ∧ t.output = [] ∧
    t.code = s.code ∧ t.cfg = s.cfg ∧ (∀ u, step t ≠ .next u) ∧
    hostAct .releaseReset t = .next (State.launch s.cfg s.code)

/-- The host's boot order, from any state, leaves exactly the launch state with the image (70_reset_and_hazards.md
R172, R174; decisions D15, D16). The model's own choices in that launch state: the parameters stay (log 1), the reset
input is a field (log 6), and the trace is empty after reset (log 7). Rests on D15, D16 (log 16); log 1, 6, 7. -/
def Obligations.BootLoadsTheImage : Prop :=
  ∀ (s : State) (image : List Word16), image.length ≤ s.cfg.codeCap →
    hostRun (bootActions image) s = .next (State.launch s.cfg image)

/-- A load into a full code memory is refused and changes nothing (70_reset_and_hazards.md R172; decisions D15, D31).
Rests on D15, D31 (log 16); log 6. -/
def Obligations.LoadPastCapacityIsRefused : Prop :=
  ∀ (s : State) (w : Word16), s.resetHeld = true → s.len = s.cfg.codeCap →
    loadReply s = .refusedFull ∧ hostAct (.load w) s = .next s

/-- While reset is released the host changes nothing but by a step or by asserting reset: a clear, a load and a write
of a status register have no effect. Code memory changes only while reset is asserted, by a clear or by appending one
loaded cell; no step changes it, whatever the run state (70_reset_and_hazards.md R172, R175; 10_state.md R28;
20_memory.md R41). Rests on D14, D15, D29 (log 16); log 3, 6. -/
def Obligations.HostWritesOnlyUnderReset : Prop :=
  (∀ (s t : State) (a : HostAction), s.resetHeld = false → hostAct a s = .next t →
    a ≠ .step → a ≠ .assertReset → t = s) ∧
  (∀ (s t : State) (a : HostAction), hostAct a s = .next t → t.code ≠ s.code →
    s.resetHeld = true ∧ ((a = .clear ∧ t.code = []) ∨ ∃ w, a = .load w ∧ t.code = s.code ++ [w]))

/-- Nothing writes code memory during a run: however many steps are run, from any state, the image and its length are the
same (70_reset_and_hazards.md R177). -/
def Obligations.RunNeverWritesCode : Prop :=
  ∀ (n : Nat) (s t : State), core.run n s = .next t → t.code = s.code ∧ t.len = s.len

/-- Every action of the host keeps the invariant (10_state.md R21 to R23, R27; decisions D15, D16). Rests on D15, D16
(log 16); log 4, 6. -/
def Obligations.HostActionsKeepTheEngineInvariant : Prop :=
  ∀ (s t : State) (a : HostAction), s.Inv → hostAct a s = .next t → t.Inv

/-- The fields of `STATUS`, and `FAULT_OPC` where `OPC_VALID` is 1 (10_state.md R28; the layout is decision D24, the
codes D23). Rests on D23, D24 (log 16). -/
def Obligations.StatusFieldsOfTheLayout : Prop :=
  ∀ s : State,
    (statusReg s).extractLsb' 0 2 = (match s.run with | .running => 0 | .halted => 1 | .faulted => 2) ∧
    (statusReg s).extractLsb' 2 2 = 0 ∧
    (s.run ≠ .faulted → (statusReg s).extractLsb' 4 4 = 0) ∧
    (s.run = .faulted → (statusReg s).extractLsb' 4 4 =
      (match s.record.cause with
        | .noFault => 0 | .unrecognizedOpcode => 1 | .fetchOutOfRange => 2 | .operandOutOfRange => 3
        | .stackOverflow => 4 | .stackUnderflow => 5 | .indexOutOfRange => 6 | .spOutOfRange => 7
        | .uninitializedRead => 8)) ∧
    ((statusReg s).extractLsb' 8 1 = 1 ↔ ∃ op, s.record.opcode = some op ∧ faultOpcReg s = op) ∧
    (statusReg s).extractLsb' 9 7 = 0

/-- `FAULT_ADDR` read as a 17-bit signed value is the fault's address in every state of the invariant: 17 bits hold
every `ip` (10_state.md R21, R28; decisions D13, D24). Rests on D13, D24 (log 16), G1 (log 13). -/
def Obligations.FaultAddrHoldsTheAddress : Prop :=
  ∀ s : State, s.Inv → (faultAddrReg s).toInt = s.record.addr

/-! ## The encoder -/

/-- A line that begins with a nullary mnemonic is that instruction, whatever follows (30_encoding.md R71, R72; R72 is
derived). -/
def Obligations.NullaryLineIgnoresItsRest : Prop :=
  ∀ (mnemonic : Line) (i : Instr) (rest : Line), (mnemonic, i) ∈
      [(['H', 'A', 'L', 'T'], Instr.halt), (['A', 'D', 'D'], .add), (['D', 'O', 'T'], .dot),
       (['M', 'P', 'Y'], .mpy), (['S', 'U', 'B'], .sub), (['U', 'N', 'L', 'K'], .unlk)] →
    readLine (mnemonic ++ rest) = .ok i

/-- A unary line whose rest the grammar admits is its instruction with the operand the rest writes when that fits 16
bits, and is refused as malformed when it does not; a rest outside the grammar is refused as malformed (30_encoding.md
R73; the grammar is decision D18, the refusals D19). Rests on D18, D19 (log 16). -/
def Obligations.UnaryLineReadsTheDecimalOperand : Prop :=
  ∀ (mnemonic : Line) (mk : Int → Instr) (rest : Line), (mnemonic, LineShape.unary mk) ∈ asmTable →
    (∀ n, RestText rest n → Fits16 n → readLine (mnemonic ++ rest) = .ok (mk n)) ∧
    (∀ n, RestText rest n → ¬ Fits16 n → readLine (mnemonic ++ rest) = .error (.malformedOperand (mnemonic ++ rest))) ∧
    ((∀ n, ¬ RestText rest n) → readLine (mnemonic ++ rest) = .error (.malformedOperand (mnemonic ++ rest)))

/-- The transcriber gives an image exactly when every line reads as an instruction and the encodings, in order, fit;
the image is those encodings, and every instruction read is well formed (30_encoding.md R75, R76, R77; decisions D20,
D31; R78 is derived). Rests on D19, D20, D31 (log 16). -/
def Obligations.AdmittedSourceIsInstructions : Prop :=
  (∀ (codeCap : Nat) (source : List Line) (image : List Word16), transcribe codeCap source = .ok image ↔
    ∃ is : List Instr, List.Forall₂ (fun line i => readLine line = .ok i) source is ∧ image = is.flatMap encode ∧
      image.length ≤ codeCap) ∧
  (∀ (line : Line) (i : Instr), readLine line = .ok i → i.wellFormed = true)

/-- A line that matches no mnemonic is `UnrecognizedInstruction`, with the line's text: the reference encoder reports it,
appends nothing and goes on with the next line; and so for the source's own test, the line `FOO 1` (30_encoding.md
R74). -/
def Obligations.UnrecognizedLineIsReportedAndSkipped : Prop :=
  (∀ line : Line, recognise asmTable line = none →
    readLine line = .error (.unrecognizedInstruction line) ∧
    (∀ stream reports, referenceLine stream reports line = .ok (stream, reports ++ [.unrecognizedInstruction line])) ∧
    (∀ stream reports lines, referenceFrom stream reports (line :: lines) =
      referenceFrom stream (reports ++ [.unrecognizedInstruction line]) lines)) ∧
  (∀ stream reports, referenceLine stream reports ['F', 'O', 'O', ' ', '1'] =
    .ok (stream, reports ++ [.unrecognizedInstruction ['F', 'O', 'O', ' ', '1']]))

/-- The transcriber refuses every source that holds a line that does not read, an unrecognised line among them. The
first line, after lines it admits, that does not read or whose cells no longer fit is the one it reports, by its own
error and text (30_encoding.md R73, R74, R76, R77). Rests on D19, D20, D31 (log 16); log 14. -/
def Obligations.FirstBadLineRefusesTheSource : Prop :=
  (∀ (codeCap : Nat) (before after : List Line) (line : Line) (e : AsmError), readLine line = .error e →
    ∀ image, transcribe codeCap (before ++ line :: after) ≠ .ok image) ∧
  ∀ (codeCap : Nat) (before after : List Line) (line : Line) (image : List Word16),
    transcribe codeCap before = .ok image →
    (∀ e, readLine line = .error e → transcribe codeCap (before ++ line :: after) = .error e) ∧
    (∀ i, readLine line = .ok i → codeCap < image.length + (encode i).length →
      transcribe codeCap (before ++ line :: after) = .error (.imageOverflow line))

/-- The reference encoder on a source with no malformed operand: the image is the encodings of the lines that read, in
source order, and the reports are the lines that begin with no mnemonic, in source order (30_encoding.md R74, R75; the
grammar of operands is decision D18). A malformed operand is left out, as the source says nothing of it (log 15); that
an image longer than `CODE_CAP` is given all the same is the model's choice (log 18). Rests on D18 (log 16); log 15,
18. -/
def Obligations.ReferenceEncoderSkipsOnlyBadLines : Prop :=
  ∀ source : List Line, (∀ line ∈ source, ∀ text, readLine line ≠ .error (.malformedOperand text)) →
    referenceEncode source = .ok
      ((source.filterMap fun line => (readLine line).toOption).flatMap encode,
        (source.filter fun line => (recognise asmTable line).isNone).map .unrecognizedInstruction)
end

