-- ==== Sys2Proof/Laws/Decode.lean ====
section
/-! SUPPORT. Small facts about cells, decoding and encoding. -/
namespace Sys2Proof.Machine

@[simp] theorem operand_eq_none_encode (i : Instr) (h : i.operand = none) : encode i = [i.opcode] := by
  simp [encode, h]

@[simp] theorem operand_eq_some_encode (i : Instr) (k : Int) (h : i.operand = some k) :
    encode i = [i.opcode, word16 k] := by
  simp [encode, h]

/-- The signed reading of a cell by its bits. -/
theorem sint16_eq (w : Word16) : sint16 w = if w.toNat < 32768 then (w.toNat : Int) else w.toNat - 65536 := by
  simp only [sint16, BitVec.toInt_eq_toNat_cond]
  split <;> split <;> omega

/-- The bits of the cell of an integer. -/
theorem word16_toNat (v : Int) : (word16 v).toNat = (v % 65536).toNat := by
  simp [word16, BitVec.toNat_ofInt]

theorem sint16_bounds (w : Word16) : -32768 ≤ sint16 w ∧ sint16 w ≤ 32767 := by
  have := w.isLt
  rw [sint16_eq]; split <;> omega

/-- Two cells are equal when their numbers are equal. -/
theorem word16_ext {a b : Word16} (h : a.toNat = b.toNat) : a = b := BitVec.eq_of_toNat_eq h

/-- The cell and the immediate of a nullary opcode row. -/
theorem nullaryOf_eq_some {op : Word16} {i : Instr} (h : nullaryOf op = some i) :
    op = i.opcode ∧ i.operand = none ∧ op.toNat ≤ 5 := by
  have key : ∀ (n : Word16), op.toNat = n.toNat → op = n := fun n hn => word16_ext hn
  unfold nullaryOf at h
  split at h <;> cases h <;> refine ⟨key _ (by simp_all [Instr.opcode]), rfl, by omega⟩

/-- The cell and the immediate of a unary opcode row. -/
theorem unaryOf_eq_some {op : Word16} {mk : Int → Instr} (h : unaryOf op = some mk) :
    (∀ k, op = (mk k).opcode ∧ (mk k).operand = some k) ∧ 7 ≤ op.toNat ∧ op.toNat ≤ 14 := by
  have key : ∀ (n : Word16), op.toNat = n.toNat → op = n := fun n hn => word16_ext hn
  unfold unaryOf at h
  split at h <;> cases h <;> refine ⟨fun k => ⟨key _ (by simp_all [Instr.opcode]), rfl⟩, by omega, by omega⟩

/-- The rows of the opcode map, by the opcode's number. -/
theorem nullaryOf_eq_none {op : Word16} : nullaryOf op = none ↔ 5 < op.toNat := by
  unfold nullaryOf
  split <;> simp_all
  omega

theorem unaryOf_eq_none {op : Word16} : unaryOf op = none ↔ op.toNat < 7 ∨ 14 < op.toNat := by
  unfold unaryOf
  split <;> simp_all
  omega

/-- What decoding can answer: the instruction of a nullary or of a unary row. -/
theorem decode_ok_cases {cells rest : List Word16} {i : Instr} (h : decode cells = .ok (i, rest)) :
    (∃ op, cells = op :: rest ∧ nullaryOf op = some i) ∨
    (∃ op w mk, cells = op :: w :: rest ∧ nullaryOf op = none ∧ unaryOf op = some mk ∧ i = mk (sint16 w)) := by
  match cells, h with
  | op :: r, h =>
    simp only [decode] at h
    cases hn : nullaryOf op with
    | some j => simp only [hn, Except.ok.injEq, Prod.mk.injEq] at h; exact .inl ⟨op, by simp [h.2], by simp [hn, h.1]⟩
    | none =>
      cases hu : unaryOf op with
      | none => simp [hn, hu] at h
      | some mk =>
        match r, h with
        | [], h => simp [hn, hu] at h
        | w :: r, h =>
          simp only [hn, hu, Except.ok.injEq, Prod.mk.injEq] at h
          exact .inr ⟨op, w, mk, by simp [h.2], hn, hu, h.1.symm⟩

/-- A decoded instruction starts with its opcode cell. -/
theorem decode_ok_opcode {cells rest : List Word16} {i : Instr} (h : decode cells = .ok (i, rest)) :
    cells.head? = some i.opcode := by
  rcases decode_ok_cases h with ⟨op, rfl, hn⟩ | ⟨op, w, mk, rfl, -, hu, rfl⟩
  · simp [(nullaryOf_eq_some hn).1]
  · simp [((unaryOf_eq_some hu).1 (sint16 w)).1]

/-- Why a list that begins with an opcode cell does not decode: the error names that cell. -/
theorem decode_error_cases {op : Word16} {rest : List Word16} {e : DecodeError} (h : decode (op :: rest) = .error e) :
    e = .unrecognizedOpcode op ∨ e = .noOperand op := by
  simp only [decode] at h
  split at h
  · cases h
  · split at h
    · cases h; exact .inl rfl
    · split at h <;> cases h; exact .inr rfl

end Sys2Proof.Machine
end

