-- ==== Sys2Proof/Laws/Assembler.lean ====
section
/-! SUPPORT. What each reader of the encoder accepts: one lemma per function, against the grammar of Safety.lean
(30_encoding.md R71 to R73). -/
namespace Sys2Proof.Machine

/-- The text goes on with no digit. -/
abbrev NoDigitNext (cs : Line) : Prop := ∀ c cs', cs = c :: cs' → digitValue c = none

theorem restAfter_eq_some {mnemonic line rest : Line} : restAfter mnemonic line = some rest ↔ line = mnemonic ++ rest := by
  induction mnemonic generalizing line with
  | nil => simp [restAfter]
  | cons c cs ih =>
    cases line with
    | nil => simp [restAfter]
    | cons d line => by_cases h : c = d <;> simp [restAfter, h, ih, eq_comm]

/-- No mnemonic is a prefix of another, so the table's order never changes which one matches (30_encoding.md R71). -/
theorem asmTable_prefixFree :
    asmTable.Pairwise fun earlier later => ∀ rest, restAfter earlier.1 (later.1 ++ rest) = none := by
  simp [asmTable, restAfter]

/-- In a table where no mnemonic is a prefix of a later one, a line is recognised as the entry it begins with. -/
theorem recognise_of_mem {table : List (Line × LineShape)}
    (hp : table.Pairwise fun earlier later => ∀ rest, restAfter earlier.1 (later.1 ++ rest) = none)
    {mnemonic : Line} {shape : LineShape} (h : (mnemonic, shape) ∈ table) (rest : Line) :
    recognise table (mnemonic ++ rest) = some (shape, rest) := by
  induction table with
  | nil => cases h
  | cons entry table ih =>
    obtain ⟨hhead, htail⟩ := List.pairwise_cons.1 hp
    rcases List.mem_cons.1 h with heq | hmem
    · subst heq
      simp [recognise, restAfter_eq_some.2 rfl]
    · simpa [recognise, hhead _ hmem rest] using ih htail hmem

/-- A line that begins with a mnemonic of the table is recognised as that entry. -/
theorem recognise_append {mnemonic : Line} {shape : LineShape} (h : (mnemonic, shape) ∈ asmTable) (rest : Line) :
    recognise asmTable (mnemonic ++ rest) = some (shape, rest) :=
  recognise_of_mem asmTable_prefixFree h rest

/-- What is recognised is an entry of the table that the line begins with. -/
theorem mem_of_recognise {table : List (Line × LineShape)} {line rest : Line} {shape : LineShape}
    (h : recognise table line = some (shape, rest)) : ∃ mnemonic, (mnemonic, shape) ∈ table ∧ line = mnemonic ++ rest := by
  induction table with
  | nil => cases h
  | cons entry table ih =>
    obtain ⟨mnemonic, sh⟩ := entry
    simp only [recognise] at h
    split at h
    · rename_i r hr
      cases h
      exact ⟨mnemonic, List.mem_cons_self, restAfter_eq_some.1 hr⟩
    · obtain ⟨m, hm, hl⟩ := ih h
      exact ⟨m, List.mem_cons_of_mem _ hm, hl⟩

theorem digitValue_digitChar (d : Fin 10) : digitValue (Nat.digitChar d.val) = some d.val := by
  revert d; decide

theorem digitValue_eq_some {c : Char} {n : Nat} :
    digitValue c = some n ↔ ∃ d : Fin 10, c = Nat.digitChar d.val ∧ n = d.val := by
  constructor
  · intro h
    unfold digitValue at h
    split at h
    · rename_i hc
      have h0 : 48 ≤ c.toNat := hc.1
      have h9 : c.toNat ≤ 57 := hc.2
      cases h
      refine ⟨⟨c.toNat - 48, by omega⟩, ?_, rfl⟩
      have key : ∀ d : Fin 10, (Nat.digitChar d.val).toNat = 48 + d.val := by decide
      have hk := key ⟨c.toNat - 48, by omega⟩
      exact Char.ext (UInt32.toNat_inj.1 (show c.toNat = (Nat.digitChar (c.toNat - 48)).toNat by rw [hk]; simp; omega))
    · cases h
  · rintro ⟨d, rfl, rfl⟩
    exact digitValue_digitChar d

/-- The digits `moreDigits` reads, and that it reads them all. -/
theorem moreDigits_eq {n m : Nat} {cs rest : Line} : moreDigits n cs = (m, rest) ↔
    ∃ ds : List (Fin 10), cs = digitChars ds ++ rest ∧ m = ds.foldl (fun n d => 10 * n + d.val) n ∧ NoDigitNext rest := by
  induction cs generalizing n with
  | nil =>
    constructor
    · intro h; cases h; exact ⟨[], rfl, rfl, by simp [NoDigitNext]⟩
    · rintro ⟨ds, h, rfl, -⟩
      obtain ⟨hd, rfl⟩ := List.append_eq_nil_iff.1 h.symm
      rw [List.map_eq_nil_iff.1 hd]; rfl
  | cons c cs ih =>
    cases hc : digitValue c with
    | none =>
      simp only [moreDigits, hc, Prod.mk.injEq]
      constructor
      · rintro ⟨rfl, rfl⟩
        exact ⟨[], rfl, rfl, fun _ _ h => by cases h; exact hc⟩
      · rintro ⟨ds, h, rfl, -⟩
        cases ds with
        | nil => exact ⟨rfl, h⟩
        | cons d ds =>
          simp only [digitChars, List.map_cons, List.cons_append, List.cons.injEq] at h
          rw [h.1, digitValue_digitChar] at hc; cases hc
    | some v =>
      simp only [moreDigits, hc, ih]
      obtain ⟨d, rfl, rfl⟩ := digitValue_eq_some.1 hc
      constructor
      · rintro ⟨ds, rfl, rfl, hr⟩
        exact ⟨d :: ds, rfl, rfl, hr⟩
      · rintro ⟨ds, h, rfl, hr⟩
        cases ds with
        | nil => exact absurd (hr _ _ h.symm) (by simp [hc])
        | cons e ds =>
          simp only [digitChars, List.map_cons, List.cons_append, List.cons.injEq] at h
          obtain ⟨he, rfl⟩ := h
          rw [he, digitValue_digitChar, Option.some.injEq] at hc
          exact ⟨ds, rfl, by rw [List.foldl_cons, hc], hr⟩

/-- `readDigits` reads one or more digits, all there are. -/
theorem readDigits_eq_some {n : Nat} {cs rest : Line} : readDigits cs = some (n, rest) ↔
    ∃ ds : List (Fin 10), ds ≠ [] ∧ cs = digitChars ds ++ rest ∧ n = digitsValue ds ∧ NoDigitNext rest := by
  cases cs with
  | nil =>
    simp only [readDigits, reduceCtorEq, false_iff]
    rintro ⟨ds, hne, h, -⟩
    exact hne (List.map_eq_nil_iff.1 (List.append_eq_nil_iff.1 h.symm).1)
  | cons c cs =>
    cases hc : digitValue c with
    | none =>
      simp only [readDigits, hc, reduceCtorEq, false_iff]
      rintro ⟨_ | ⟨d, ds⟩, hne, h, -⟩
      · exact hne rfl
      · simp only [digitChars, List.map_cons, List.cons_append, List.cons.injEq] at h
        rw [h.1, digitValue_digitChar] at hc; cases hc
    | some v =>
      obtain ⟨d, rfl, rfl⟩ := digitValue_eq_some.1 hc
      simp only [readDigits, hc, Option.some.injEq, moreDigits_eq]
      constructor
      · rintro ⟨ds, rfl, rfl, hr⟩
        exact ⟨d :: ds, by simp, rfl, by simp [digitsValue], hr⟩
      · rintro ⟨_ | ⟨e, ds⟩, hne, h, rfl, hr⟩
        · exact absurd rfl hne
        · simp only [digitChars, List.map_cons, List.cons_append, List.cons.injEq] at h
          obtain ⟨he, rfl⟩ := h
          rw [he, digitValue_digitChar, Option.some.injEq] at hc
          exact ⟨ds, rfl, by simp [digitsValue, hc], hr⟩

/-- A digit is no sign, no blank and no parenthesis. -/
theorem digitChar_ne (d : Fin 10) : Nat.digitChar d.val ≠ '-' ∧ Nat.digitChar d.val ≠ '+' ∧
    Nat.digitChar d.val ≠ '(' ∧ isSep (Nat.digitChar d.val) = false := by
  revert d; decide

/-- `readInt` reads an `int` of the grammar, with all its digits. -/
theorem readInt_eq_some {n : Int} {cs rest : Line} : readInt cs = some (n, rest) ↔
    ∃ txt, IntText txt n ∧ cs = txt ++ rest ∧ NoDigitNext rest := by
  constructor
  · intro h
    unfold readInt at h
    split at h <;> simp only [Option.map_eq_some_iff, Prod.exists, Prod.mk.injEq] at h <;>
      obtain ⟨m, r, hd, rfl, rfl⟩ := h <;> obtain ⟨ds, hne, rfl, rfl, hr⟩ := readDigits_eq_some.1 hd
    · exact ⟨_, .minus hne, rfl, hr⟩
    · exact ⟨_, .plus hne, rfl, hr⟩
    · exact ⟨_, .unsigned hne, rfl, hr⟩
  · rintro ⟨txt, hi, rfl, hr⟩
    cases hi with
    | minus hne => simp [readInt, readDigits_eq_some.2 ⟨_, hne, rfl, rfl, hr⟩]
    | plus hne => simp [readInt, readDigits_eq_some.2 ⟨_, hne, rfl, rfl, hr⟩]
    | @unsigned ds hne =>
      have hd := readDigits_eq_some.2 ⟨ds, hne, rfl, rfl, hr⟩
      cases ds with
      | nil => exact absurd rfl hne
      | cons d ds =>
        simp only [digitChars, List.map_cons, List.cons_append] at hd ⊢
        unfold readInt
        split
        · rename_i h; exact absurd (List.cons.inj h).1 (digitChar_ne d).1
        · rename_i h; exact absurd (List.cons.inj h).1 (digitChar_ne d).2.1
        · rw [hd]; rfl

theorem isSep_eq_true {c : Char} : isSep c = true ↔ c = ' ' ∨ c = '\t' := by simp [isSep]

theorem isTrail_eq_true {cs : Line} : isTrail cs = true ↔ TrailText cs := by
  simp [isTrail, or_assoc]

/-- Trailing blanks begin with no digit. -/
theorem noDigitNext_of_trail {cs : Line} (h : TrailText cs) : NoDigitNext cs := by
  rintro c cs' rfl
  rcases h c List.mem_cons_self with rfl | rfl | rfl <;> decide

/-- What an `int` begins with is no blank and no parenthesis. -/
theorem intText_head {txt : Line} {n : Int} (h : IntText txt n) :
    ∃ c cs, txt = c :: cs ∧ c ≠ '(' ∧ isSep c = false := by
  cases h with
  | minus => exact ⟨_, _, rfl, by decide, by decide⟩
  | plus => exact ⟨_, _, rfl, by decide, by decide⟩
  | @unsigned ds hne =>
    cases ds with
    | nil => exact absurd rfl hne
    | cons d ds => exact ⟨_, _, rfl, (digitChar_ne d).2.2⟩

theorem plainOperand_eq_some {cs : Line} {n : Int} : plainOperand cs = some n ↔
    ∃ txt trail, cs = txt ++ trail ∧ IntText txt n ∧ TrailText trail := by
  constructor
  · intro h
    unfold plainOperand at h
    split at h
    · rename_i m rest hm
      split at h
      · rename_i ht
        cases h
        obtain ⟨txt, hi, rfl, -⟩ := readInt_eq_some.1 hm
        exact ⟨txt, rest, rfl, hi, isTrail_eq_true.1 ht⟩
      · cases h
    · cases h
  · rintro ⟨txt, trail, rfl, hi, ht⟩
    simp [plainOperand, readInt_eq_some.2 ⟨txt, hi, rfl, noDigitNext_of_trail ht⟩, isTrail_eq_true.2 ht]

theorem parenOperand_eq_some {cs : Line} {n : Int} : parenOperand cs = some n ↔
    ∃ txt trail, cs = txt ++ ')' :: trail ∧ IntText txt n ∧ TrailText trail := by
  constructor
  · intro h
    unfold parenOperand at h
    split at h
    · rename_i m rest hm
      split at h
      · rename_i ht
        cases h
        obtain ⟨txt, hi, rfl, -⟩ := readInt_eq_some.1 hm
        exact ⟨txt, rest, rfl, hi, isTrail_eq_true.1 ht⟩
      · cases h
    · cases h
  · rintro ⟨txt, trail, rfl, hi, ht⟩
    have hr : NoDigitNext (')' :: trail) := by rintro c cs' h; cases h; decide
    simp [parenOperand, readInt_eq_some.2 ⟨txt, hi, rfl, hr⟩, isTrail_eq_true.2 ht]

/-- The blanks `dropSeps` leaves out, and that it leaves out all of them. -/
theorem dropSeps_spec (cs : Line) : ∃ sep, cs = sep ++ dropSeps cs ∧ (∀ c ∈ sep, c = ' ' ∨ c = '\t') := by
  induction cs with
  | nil => exact ⟨[], rfl, by simp⟩
  | cons c cs ih =>
    obtain ⟨sep, hs, hm⟩ := ih
    by_cases hc : isSep c = true
    · refine ⟨c :: sep, by simp [dropSeps, hc, ← hs], ?_⟩
      simpa using ⟨isSep_eq_true.1 hc, hm⟩
    · exact ⟨[], by simp [dropSeps, hc], by simp⟩

theorem dropSeps_append {sep cs : Line} (hs : ∀ c ∈ sep, c = ' ' ∨ c = '\t') (h : ∀ c cs', cs = c :: cs' → isSep c = false) :
    dropSeps (sep ++ cs) = cs := by
  induction sep with
  | nil =>
    cases cs with
    | nil => rfl
    | cons c cs => simp [dropSeps, h c cs rfl]
  | cons c sep ih =>
    have hc := isSep_eq_true.2 (hs c List.mem_cons_self)
    simp only [List.cons_append, dropSeps, hc, if_true]
    exact ih fun d hd => hs d (List.mem_cons_of_mem _ hd)

/-- `readOperand` after a separator: the parenthesised operand, or the plain one. -/
theorem readOperand_sep {c : Char} (hc : isSep c = true) (cs : Line) :
    readOperand (c :: cs) = match dropSeps cs with | '(' :: cs => parenOperand cs | cs => plainOperand cs := by
  rcases isSep_eq_true.1 hc with rfl | rfl <;> rfl

/-- `readOperand` after separators and an opening parenthesis. -/
theorem readOperand_sepParen {sep : Line} (hs : SepText sep) (cs : Line) :
    readOperand (sep ++ '(' :: cs) = parenOperand cs := by
  obtain ⟨hne, hm⟩ := hs
  obtain ⟨c, sep, rfl⟩ := List.exists_cons_of_ne_nil hne
  rw [List.cons_append, readOperand_sep (isSep_eq_true.2 (hm c List.mem_cons_self)),
    dropSeps_append (fun d hd => hm d (List.mem_cons_of_mem _ hd)) (by rintro d cs' h; cases h; decide)]
  rfl

/-- `readOperand` after separators and no opening parenthesis. -/
theorem readOperand_sepPlain {sep : Line} (hs : SepText sep) {c : Char} (hp : c ≠ '(') (hc : isSep c = false) (cs : Line) :
    readOperand (sep ++ c :: cs) = plainOperand (c :: cs) := by
  obtain ⟨hne, hm⟩ := hs
  obtain ⟨d, sep, rfl⟩ := List.exists_cons_of_ne_nil hne
  rw [List.cons_append, readOperand_sep (isSep_eq_true.2 (hm d List.mem_cons_self)),
    dropSeps_append (fun d hd => hm d (List.mem_cons_of_mem _ hd)) (by rintro d cs' h; cases h; exact hc)]
  split
  · rename_i h; exact absurd (List.cons.inj h).1 hp
  · rfl

/-- `readOperand` admits exactly the texts of the grammar, with the values they write. -/
theorem readOperand_eq_some {rest : Line} {n : Int} : readOperand rest = some n ↔ RestText rest n := by
  constructor
  · intro h
    cases rest with
    | nil => cases h
    | cons c cs =>
      by_cases hp : c = '('
      · subst hp
        obtain ⟨txt, trail, rfl, hi, ht⟩ := parenOperand_eq_some.1 (show parenOperand cs = some n by simpa [readOperand] using h)
        exact .paren hi ht
      · by_cases hc : isSep c = true
        · rw [readOperand_sep hc] at h
          obtain ⟨sep, hs, hm⟩ := dropSeps_spec cs
          have hsep : SepText (c :: sep) := ⟨by simp, by simpa using ⟨isSep_eq_true.1 hc, hm⟩⟩
          rw [hs, ← List.cons_append]
          split at h
          · rename_i hd
            obtain ⟨txt, trail, rfl, hi, ht⟩ := parenOperand_eq_some.1 h
            rw [hd]; exact .sepParen hsep hi ht
          · obtain ⟨txt, trail, hd, hi, ht⟩ := plainOperand_eq_some.1 h
            rw [hd]; exact .plain hsep hi ht
        · simp [readOperand, hp, hc] at h
  · intro h
    cases h with
    | paren hi ht => simpa [readOperand] using parenOperand_eq_some.2 ⟨_, _, rfl, hi, ht⟩
    | sepParen hs hi ht => exact (readOperand_sepParen hs _).trans (parenOperand_eq_some.2 ⟨_, _, rfl, hi, ht⟩)
    | plain hs hi ht =>
      obtain ⟨c, cs, rfl, hp, hc⟩ := intText_head hi
      exact (readOperand_sepPlain hs hp hc _).trans (plainOperand_eq_some.2 ⟨_, _, rfl, hi, ht⟩)

/-- A source reads on from its first line: refused by that line, or continued with its cells appended. -/
theorem transcribeFrom_cons {codeCap : Nat} {stream : List Word16} {line : Line} {lines : List Line} {i : Instr}
    (h : readLine line = .ok i) (hc : stream.length + i.size ≤ codeCap) :
    transcribeFrom codeCap stream (line :: lines) = transcribeFrom codeCap (stream ++ encode i) lines := by
  simp [transcribeFrom, h, Nat.not_lt.2 hc]

/-- An encoding has as many cells as the instruction's size. -/
theorem encode_length (i : Instr) : (encode i).length = i.size := by cases i <;> rfl

end Sys2Proof.Machine
end

