-- ==== Sys2Proof/Laws/Memory.lean ====
section
/-! SUPPORT. Reading after writing, and the canonical form of stack memory. -/
namespace Sys2Proof.Machine

@[simp] theorem Memory.read_nil (i : Nat) : Memory.read [] i = none := rfl

/-- One read law for both cases: the cell written, and every other cell. -/
theorem Memory.read_write (m : Memory) (i j : Nat) (v : Word16) :
    (m.write i v).read j = if j = i then some v else m.read j := by
  induction m with
  | nil => simp [Memory.write, Memory.read]
  | cons c m ih =>
    obtain ⟨k, w⟩ := c
    simp only [Memory.write]
    split
    · simp [Memory.read]
    · split
      · subst k
        by_cases h : j = i <;> simp [Memory.read, h]
      · simp only [Memory.read, ih]
        split <;> split <;> first | rfl | omega

@[simp] theorem Memory.read_write_self (m : Memory) (i : Nat) (v : Word16) : (m.write i v).read i = some v := by
  simp [Memory.read_write]

@[simp] theorem Memory.read_write_ne (m : Memory) (i j : Nat) (v : Word16) (h : j ≠ i) :
    (m.write i v).read j = m.read j := by
  simp [Memory.read_write, h]

/-- A cell of a written memory is the written one or an old one. -/
theorem Memory.mem_write {m : Memory} {i : Nat} {v : Word16} {c : Cell} (h : c ∈ m.write i v) :
    c = (i, v) ∨ c ∈ m := by
  induction m with
  | nil => simpa [Memory.write] using h
  | cons d m ih =>
    obtain ⟨k, w⟩ := d
    simp only [Memory.write] at h
    split at h
    · simpa using h
    · split at h
      · rcases List.mem_cons.1 h with h | h
        · exact .inl h
        · exact .inr (List.mem_cons_of_mem _ h)
      · rcases List.mem_cons.1 h with h | h
        · exact .inr (h ▸ List.mem_cons_self)
        · exact (ih h).imp_right (List.mem_cons_of_mem _)

/-- A write keeps the canonical form. -/
theorem Memory.wf_write {m : Memory} (h : m.wf) (i : Nat) (v : Word16) : (m.write i v).wf := by
  induction m with
  | nil => simp [Memory.write, Memory.wf]
  | cons c m ih =>
    obtain ⟨k, w⟩ := c
    obtain ⟨hk, hm⟩ := List.pairwise_cons.1 h
    simp only [Memory.write]
    split
    · refine List.pairwise_cons.2 ⟨fun d hd => ?_, h⟩
      rcases List.mem_cons.1 hd with rfl | hd
      · assumption
      · exact Nat.lt_trans (by assumption) (hk d hd)
    · split
      · subst k
        exact List.pairwise_cons.2 ⟨hk, hm⟩
      · refine List.pairwise_cons.2 ⟨fun d hd => ?_, ih hm⟩
        rcases Memory.mem_write hd with rfl | hd
        · simp only; omega
        · exact hk d hd

/-- A write within a bound keeps every cell within it. -/
theorem Memory.bound_write {m : Memory} {b i : Nat} (h : ∀ c ∈ m, c.1 < b) (hi : i < b) (v : Word16) :
    ∀ c ∈ m.write i v, c.1 < b := by
  intro c hc
  rcases Memory.mem_write hc with rfl | hc
  · exact hi
  · exact h c hc

/-- The memory at reset is in canonical form. -/
theorem reset_stack_wf : State.reset.stack.wf := List.Pairwise.nil

end Sys2Proof.Machine
end

