-- ==== Sys2Proof/Laws/State.lean ====
section
/-! SUPPORT. What each update of the state leaves in each field: one lemma per field per update. -/
namespace Sys2Proof.Machine

variable (s : State)

@[simp] theorem withIp_ip (v : Int) : (s.withIp v).ip = v := rfl
@[simp] theorem withIp_sp (v : Int) : (s.withIp v).sp = s.sp := rfl
@[simp] theorem withIp_fp (v : Int) : (s.withIp v).fp = s.fp := rfl
@[simp] theorem withIp_run (v : Int) : (s.withIp v).run = s.run := rfl
@[simp] theorem withIp_record (v : Int) : (s.withIp v).record = s.record := rfl
@[simp] theorem withIp_code (v : Int) : (s.withIp v).code = s.code := rfl
@[simp] theorem withIp_stack (v : Int) : (s.withIp v).stack = s.stack := rfl
@[simp] theorem withIp_output (v : Int) : (s.withIp v).output = s.output := rfl
@[simp] theorem withIp_trace (v : Int) : (s.withIp v).trace = s.trace := rfl
@[simp] theorem withIp_resetHeld (v : Int) : (s.withIp v).resetHeld = s.resetHeld := rfl
@[simp] theorem withIp_cfg (v : Int) : (s.withIp v).cfg = s.cfg := rfl

@[simp] theorem withSp_ip (n : Nat) : (s.withSp n).ip = s.ip := rfl
@[simp] theorem withSp_sp (n : Nat) : (s.withSp n).sp = n := rfl
@[simp] theorem withSp_fp (n : Nat) : (s.withSp n).fp = s.fp := rfl
@[simp] theorem withSp_run (n : Nat) : (s.withSp n).run = s.run := rfl
@[simp] theorem withSp_record (n : Nat) : (s.withSp n).record = s.record := rfl
@[simp] theorem withSp_code (n : Nat) : (s.withSp n).code = s.code := rfl
@[simp] theorem withSp_stack (n : Nat) : (s.withSp n).stack = s.stack := rfl
@[simp] theorem withSp_output (n : Nat) : (s.withSp n).output = s.output := rfl
@[simp] theorem withSp_trace (n : Nat) : (s.withSp n).trace = s.trace := rfl
@[simp] theorem withSp_resetHeld (n : Nat) : (s.withSp n).resetHeld = s.resetHeld := rfl
@[simp] theorem withSp_cfg (n : Nat) : (s.withSp n).cfg = s.cfg := rfl

@[simp] theorem withFp_ip (v : Int) : (s.withFp v).ip = s.ip := rfl
@[simp] theorem withFp_sp (v : Int) : (s.withFp v).sp = s.sp := rfl
@[simp] theorem withFp_fp (v : Int) : (s.withFp v).fp = v := rfl
@[simp] theorem withFp_run (v : Int) : (s.withFp v).run = s.run := rfl
@[simp] theorem withFp_record (v : Int) : (s.withFp v).record = s.record := rfl
@[simp] theorem withFp_code (v : Int) : (s.withFp v).code = s.code := rfl
@[simp] theorem withFp_stack (v : Int) : (s.withFp v).stack = s.stack := rfl
@[simp] theorem withFp_output (v : Int) : (s.withFp v).output = s.output := rfl
@[simp] theorem withFp_trace (v : Int) : (s.withFp v).trace = s.trace := rfl
@[simp] theorem withFp_resetHeld (v : Int) : (s.withFp v).resetHeld = s.resetHeld := rfl
@[simp] theorem withFp_cfg (v : Int) : (s.withFp v).cfg = s.cfg := rfl

@[simp] theorem withCell_ip (n : Nat) (v : Word16) : (s.withCell n v).ip = s.ip := rfl
@[simp] theorem withCell_sp (n : Nat) (v : Word16) : (s.withCell n v).sp = s.sp := rfl
@[simp] theorem withCell_fp (n : Nat) (v : Word16) : (s.withCell n v).fp = s.fp := rfl
@[simp] theorem withCell_run (n : Nat) (v : Word16) : (s.withCell n v).run = s.run := rfl
@[simp] theorem withCell_record (n : Nat) (v : Word16) : (s.withCell n v).record = s.record := rfl
@[simp] theorem withCell_code (n : Nat) (v : Word16) : (s.withCell n v).code = s.code := rfl
@[simp] theorem withCell_stack (n : Nat) (v : Word16) : (s.withCell n v).stack = s.stack.write n v := rfl
@[simp] theorem withCell_output (n : Nat) (v : Word16) : (s.withCell n v).output = s.output := rfl
@[simp] theorem withCell_trace (n : Nat) (v : Word16) : (s.withCell n v).trace = s.trace := rfl
@[simp] theorem withCell_resetHeld (n : Nat) (v : Word16) : (s.withCell n v).resetHeld = s.resetHeld := rfl
@[simp] theorem withCell_cfg (n : Nat) (v : Word16) : (s.withCell n v).cfg = s.cfg := rfl

@[simp] theorem emit_ip (v : Int) : (s.emit v).ip = s.ip := rfl
@[simp] theorem emit_sp (v : Int) : (s.emit v).sp = s.sp := rfl
@[simp] theorem emit_fp (v : Int) : (s.emit v).fp = s.fp := rfl
@[simp] theorem emit_run (v : Int) : (s.emit v).run = s.run := rfl
@[simp] theorem emit_record (v : Int) : (s.emit v).record = s.record := rfl
@[simp] theorem emit_code (v : Int) : (s.emit v).code = s.code := rfl
@[simp] theorem emit_stack (v : Int) : (s.emit v).stack = s.stack := rfl
@[simp] theorem emit_output (v : Int) : (s.emit v).output = s.output ++ [v] := rfl
@[simp] theorem emit_trace (v : Int) : (s.emit v).trace = s.trace := rfl
@[simp] theorem emit_resetHeld (v : Int) : (s.emit v).resetHeld = s.resetHeld := rfl
@[simp] theorem emit_cfg (v : Int) : (s.emit v).cfg = s.cfg := rfl

@[simp] theorem halt_ip : (s.halt).ip = s.ip := rfl
@[simp] theorem halt_sp : (s.halt).sp = s.sp := rfl
@[simp] theorem halt_fp : (s.halt).fp = s.fp := rfl
@[simp] theorem halt_run : (s.halt).run = .halted := rfl
@[simp] theorem halt_record : (s.halt).record = s.record := rfl
@[simp] theorem halt_code : (s.halt).code = s.code := rfl
@[simp] theorem halt_stack : (s.halt).stack = s.stack := rfl
@[simp] theorem halt_output : (s.halt).output = s.output := rfl
@[simp] theorem halt_trace : (s.halt).trace = s.trace := rfl
@[simp] theorem halt_resetHeld : (s.halt).resetHeld = s.resetHeld := rfl
@[simp] theorem halt_cfg : (s.halt).cfg = s.cfg := rfl

@[simp] theorem takeFault_ip (c : Cause) (op : Option Word16) : (takeFault s c op).ip = s.ip := rfl
@[simp] theorem takeFault_sp (c : Cause) (op : Option Word16) : (takeFault s c op).sp = s.sp := rfl
@[simp] theorem takeFault_fp (c : Cause) (op : Option Word16) : (takeFault s c op).fp = s.fp := rfl
@[simp] theorem takeFault_run (c : Cause) (op : Option Word16) : (takeFault s c op).run = .faulted := rfl
@[simp] theorem takeFault_record (c : Cause) (op : Option Word16) : (takeFault s c op).record = { cause := c, opcode := op, addr := s.ip } := rfl
@[simp] theorem takeFault_code (c : Cause) (op : Option Word16) : (takeFault s c op).code = s.code := rfl
@[simp] theorem takeFault_stack (c : Cause) (op : Option Word16) : (takeFault s c op).stack = s.stack := rfl
@[simp] theorem takeFault_output (c : Cause) (op : Option Word16) : (takeFault s c op).output = s.output := rfl
@[simp] theorem takeFault_trace (c : Cause) (op : Option Word16) : (takeFault s c op).trace = s.trace := rfl
@[simp] theorem takeFault_resetHeld (c : Cause) (op : Option Word16) : (takeFault s c op).resetHeld = s.resetHeld := rfl
@[simp] theorem takeFault_cfg (c : Cause) (op : Option Word16) : (takeFault s c op).cfg = s.cfg := rfl

@[simp] theorem advance_ip (i : Instr) : (advance i s).ip = s.ip + i.size := rfl
@[simp] theorem advance_sp (i : Instr) : (advance i s).sp = s.sp := rfl
@[simp] theorem advance_fp (i : Instr) : (advance i s).fp = s.fp := rfl
@[simp] theorem advance_run (i : Instr) : (advance i s).run = s.run := rfl
@[simp] theorem advance_record (i : Instr) : (advance i s).record = s.record := rfl
@[simp] theorem advance_code (i : Instr) : (advance i s).code = s.code := rfl
@[simp] theorem advance_stack (i : Instr) : (advance i s).stack = s.stack := rfl
@[simp] theorem advance_output (i : Instr) : (advance i s).output = s.output := rfl
@[simp] theorem advance_trace (i : Instr) : (advance i s).trace = s.trace := rfl
@[simp] theorem advance_resetHeld (i : Instr) : (advance i s).resetHeld = s.resetHeld := rfl
@[simp] theorem advance_cfg (i : Instr) : (advance i s).cfg = s.cfg := rfl

@[simp] theorem retire_ip (i : Instr) (t : State) : (retire i s t).ip = t.ip := by
  unfold retire; split <;> rfl
@[simp] theorem retire_sp (i : Instr) (t : State) : (retire i s t).sp = t.sp := by
  unfold retire; split <;> rfl
@[simp] theorem retire_fp (i : Instr) (t : State) : (retire i s t).fp = t.fp := by
  unfold retire; split <;> rfl
@[simp] theorem retire_run (i : Instr) (t : State) : (retire i s t).run = t.run := by
  unfold retire; split <;> rfl
@[simp] theorem retire_record (i : Instr) (t : State) : (retire i s t).record = t.record := by
  unfold retire; split <;> rfl
@[simp] theorem retire_code (i : Instr) (t : State) : (retire i s t).code = t.code := by
  unfold retire; split <;> rfl
@[simp] theorem retire_stack (i : Instr) (t : State) : (retire i s t).stack = t.stack := by
  unfold retire; split <;> rfl
@[simp] theorem retire_output (i : Instr) (t : State) : (retire i s t).output = t.output := by
  unfold retire; split <;> rfl
theorem retire_trace (i : Instr) (t : State) :
    (retire i s t).trace = if s.cfg.traceEnabled then s.trace ++ [traceRecord i s.ip t] else t.trace := by
  unfold retire; cases s.cfg.traceEnabled <;> rfl
@[simp] theorem retire_resetHeld (i : Instr) (t : State) : (retire i s t).resetHeld = t.resetHeld := by
  unfold retire; split <;> rfl
@[simp] theorem retire_cfg (i : Instr) (t : State) : (retire i s t).cfg = t.cfg := by
  unfold retire; split <;> rfl

@[simp] theorem stackView_retire (i : Instr) (t : State) : stackView (retire i s t) = stackView t := by
  simp [stackView]

/-- With tracing off, retiring is the working copy itself. -/
theorem retire_untraced (i : Instr) (t : State) (h : s.cfg.traceEnabled = false) : retire i s t = t := by
  simp [retire, h]

end Sys2Proof.Machine
end

