-- ==== Sys2Proof/Laws/Ops.lean ====
section
/-! SUPPORT. What each shared operation can answer: its value when its checks pass, its cause when one fails, and one
inversion lemma each. -/
namespace Sys2Proof.Machine

variable {s t : State} {v : Word16} {i : Int}

@[simp] theorem ok_bind {α β : Type} (a : α) (f : α → Except Cause β) : (Except.ok a >>= f) = f a := rfl

@[simp] theorem error_bind {α β : Type} (c : Cause) (f : α → Except Cause β) :
    ((Except.error c : Except Cause α) >>= f) = .error c := rfl

@[simp] theorem pure_eq_ok {α : Type} (a : α) : (pure a : Except Cause α) = .ok a := rfl

/-- A sequence answers a value exactly when both parts do. -/
theorem bind_eq_ok {α β : Type} {x : Except Cause α} {f : α → Except Cause β} {b : β} :
    (x >>= f) = .ok b ↔ ∃ a, x = .ok a ∧ f a = .ok b := by
  cases x <;> simp

/-- A sequence fails exactly when one of its parts does. -/
theorem bind_eq_error {α β : Type} {x : Except Cause α} {f : α → Except Cause β} {c : Cause} :
    (x >>= f) = .error c ↔ x = .error c ∨ ∃ a, x = .ok a ∧ f a = .error c := by
  cases x <;> simp

theorem push_ok (h : s.sp < s.cfg.stackCap) : push s v = .ok ((s.withCell s.sp v).withSp (s.sp + 1)) := by
  simp [push, Nat.not_le.2 h]

theorem push_full (h : s.cfg.stackCap ≤ s.sp) : push s v = .error .stackOverflow := by
  simp [push, h]

/-- `push` answers a state exactly when there is room. -/
theorem push_eq_ok : push s v = .ok t ↔ s.sp < s.cfg.stackCap ∧ t = (s.withCell s.sp v).withSp (s.sp + 1) := by
  rcases Nat.lt_or_ge s.sp s.cfg.stackCap with h | h
  · simp [push_ok h, h, eq_comm]
  · simp [push_full h, Nat.not_lt.2 h]

theorem pop_ok (h : 0 < s.sp) (hv : s.stack.read (s.sp - 1) = some v) :
    pop s = .ok (v, s.withSp (s.sp - 1)) := by
  simp [pop, Nat.ne_of_gt h, hv]

theorem pop_empty (h : s.sp = 0) : pop s = .error .stackUnderflow := by
  simp [pop, h]

theorem pop_unwritten (h : 0 < s.sp) (hv : s.stack.read (s.sp - 1) = none) :
    pop s = .error .uninitializedRead := by
  simp [pop, Nat.ne_of_gt h, hv]

/-- `pop` answers a value exactly when there is a top cell that holds it. -/
theorem pop_eq_ok :
    pop s = .ok (v, t) ↔ 0 < s.sp ∧ s.stack.read (s.sp - 1) = some v ∧ t = s.withSp (s.sp - 1) := by
  rcases Nat.eq_zero_or_pos s.sp with h | h
  · simp [pop_empty h, h]
  · cases hv : s.stack.read (s.sp - 1) with
    | none => simp [pop_unwritten h hv]
    | some w => simp [pop_ok h hv, h, eq_comm]

theorem memRead_ok (h : 0 ≤ i ∧ i < s.cfg.stackCap) (hv : s.stack.read i.toNat = some v) :
    memRead s i = .ok v := by
  have : ¬ (i < 0 ∨ (s.cfg.stackCap : Int) ≤ i) := by omega
  simp [memRead, this, hv]

theorem memRead_unwritten (h : 0 ≤ i ∧ i < s.cfg.stackCap) (hv : s.stack.read i.toNat = none) :
    memRead s i = .error .uninitializedRead := by
  have : ¬ (i < 0 ∨ (s.cfg.stackCap : Int) ≤ i) := by omega
  simp [memRead, this, hv]

theorem memRead_outside (h : ¬ (0 ≤ i ∧ i < s.cfg.stackCap)) : memRead s i = .error .indexOutOfRange := by
  have : i < 0 ∨ (s.cfg.stackCap : Int) ≤ i := by omega
  simp [memRead, this]

/-- `memRead` answers a value exactly when the index is in range and the cell holds it. -/
theorem memRead_eq_ok :
    memRead s i = .ok v ↔ (0 ≤ i ∧ i < s.cfg.stackCap) ∧ s.stack.read i.toNat = some v := by
  by_cases h : 0 ≤ i ∧ i < s.cfg.stackCap
  · cases hv : s.stack.read i.toNat with
    | none => simp [memRead_unwritten h hv]
    | some w => simp [memRead_ok h hv, h]
  · simp only [memRead_outside h, h]; simp

theorem memWrite_ok (h : 0 ≤ i ∧ i < s.cfg.stackCap) : memWrite s i v = .ok (s.withCell i.toNat v) := by
  have : ¬ (i < 0 ∨ (s.cfg.stackCap : Int) ≤ i) := by omega
  simp [memWrite, this]

theorem memWrite_outside (h : ¬ (0 ≤ i ∧ i < s.cfg.stackCap)) : memWrite s i v = .error .indexOutOfRange := by
  have : i < 0 ∨ (s.cfg.stackCap : Int) ≤ i := by omega
  simp [memWrite, this]

/-- `memWrite` answers a state exactly when the index is in range. -/
theorem memWrite_eq_ok :
    memWrite s i v = .ok t ↔ (0 ≤ i ∧ i < s.cfg.stackCap) ∧ t = s.withCell i.toNat v := by
  by_cases h : 0 ≤ i ∧ i < s.cfg.stackCap
  · simp [memWrite_ok h, h, eq_comm]
  · simp only [memWrite_outside h, h]; simp

theorem moveSp_ok (h : 0 ≤ i ∧ i ≤ s.cfg.stackCap) : moveSp s i = .ok (s.withSp i.toNat) := by
  have : ¬ (i < 0 ∨ (s.cfg.stackCap : Int) < i) := by omega
  simp [moveSp, this]

theorem moveSp_outside (h : i < 0 ∨ (s.cfg.stackCap : Int) < i) : moveSp s i = .error .spOutOfRange := by
  simp [moveSp, h]

/-- `moveSp` answers a state exactly when the new `sp` is in range. -/
theorem moveSp_eq_ok : moveSp s i = .ok t ↔ (0 ≤ i ∧ i ≤ s.cfg.stackCap) ∧ t = s.withSp i.toNat := by
  by_cases h : 0 ≤ i ∧ i ≤ s.cfg.stackCap
  · simp [moveSp_ok h, h, eq_comm]
  · have : i < 0 ∨ (s.cfg.stackCap : Int) < i := by omega
    simp only [moveSp_outside this, h]; simp

/-! The causes each operation can answer. -/

theorem push_cause {c : Cause} (h : push s v = .error c) : c = .stackOverflow := by
  unfold push at h; split at h <;> cases h; rfl

theorem pop_cause {c : Cause} (h : pop s = .error c) : c = .stackUnderflow ∨ c = .uninitializedRead := by
  unfold pop at h
  split at h
  · cases h; exact .inl rfl
  · split at h <;> cases h; exact .inr rfl

theorem memRead_cause {c : Cause} (h : memRead s i = .error c) : c = .indexOutOfRange ∨ c = .uninitializedRead := by
  unfold memRead at h
  split at h
  · cases h; exact .inl rfl
  · split at h <;> cases h; exact .inr rfl

theorem memWrite_cause {c : Cause} (h : memWrite s i v = .error c) : c = .indexOutOfRange := by
  unfold memWrite at h; split at h <;> cases h; rfl

theorem moveSp_cause {c : Cause} (h : moveSp s i = .error c) : c = .spOutOfRange := by
  unfold moveSp at h; split at h <;> cases h; rfl

@[simp] theorem finish_ok (j : Instr) (s t : State) : finish j s (.ok t) = .next (retire j s t) := rfl

@[simp] theorem finish_error (j : Instr) (s : State) (c : Cause) :
    finish j s (.error c) = .next (takeFault s c (some j.opcode)) := rfl

/-- Whatever an instruction's body does, the instruction answers a next state: the retired working copy or the fault. -/
theorem finish_cases {j : Instr} {body : Except Cause State} (h : finish j s body = .next t) :
    (∃ u, body = .ok u ∧ t = retire j s u) ∨
    (∃ c, body = .error c ∧ t = takeFault s c (some j.opcode)) := by
  cases body with
  | ok u => exact .inl ⟨u, rfl, by simpa using h.symm⟩
  | error c => exact .inr ⟨c, rfl, by simpa using h.symm⟩

end Sys2Proof.Machine
end

