-- ==== Sys2Proof/Laws/PerInstr.lean ====
section
/-! SUPPORT. Per-instruction families. EncodedCells: an instruction's encoding has its length and begins with its own
opcode cell, a value of the opcode map (30_encoding.md R62, R64). -/
namespace Sys2Proof.Laws.EncodedCells

/-- The encoding has `size` cells, one or two, and its first is the opcode, 0 to 5 for one cell and 7 to 14 for two. -/
def Statement (i : Instr) : Prop :=
  (encode i).length = i.size ∧ (encode i).head? = some i.opcode ∧
  ((i.size = 1 ∧ i.opcode.toNat ≤ 5) ∨ (i.size = 2 ∧ 7 ≤ i.opcode.toNat ∧ i.opcode.toNat ≤ 14))

theorem halt : Statement .halt := ⟨rfl, rfl, .inl (by decide)⟩
theorem add : Statement .add := ⟨rfl, rfl, .inl (by decide)⟩
theorem dot : Statement .dot := ⟨rfl, rfl, .inl (by decide)⟩
theorem mpy : Statement .mpy := ⟨rfl, rfl, .inl (by decide)⟩
theorem sub : Statement .sub := ⟨rfl, rfl, .inl (by decide)⟩
theorem unlk : Statement .unlk := ⟨rfl, rfl, .inl (by decide)⟩
theorem call (t : Int) : Statement (.call t) := ⟨rfl, rfl, .inr ⟨rfl, by simp [Instr.opcode]⟩⟩
theorem exit (k : Int) : Statement (.exit k) := ⟨rfl, rfl, .inr ⟨rfl, by simp [Instr.opcode]⟩⟩
theorem int (k : Int) : Statement (.int k) := ⟨rfl, rfl, .inr ⟨rfl, by simp [Instr.opcode]⟩⟩
theorem jmp (off : Int) : Statement (.jmp off) := ⟨rfl, rfl, .inr ⟨rfl, by simp [Instr.opcode]⟩⟩
theorem jzr (off : Int) : Statement (.jzr off) := ⟨rfl, rfl, .inr ⟨rfl, by simp [Instr.opcode]⟩⟩
theorem link (k : Int) : Statement (.link k) := ⟨rfl, rfl, .inr ⟨rfl, by simp [Instr.opcode]⟩⟩
theorem load (k : Int) : Statement (.load k) := ⟨rfl, rfl, .inr ⟨rfl, by simp [Instr.opcode]⟩⟩
theorem store (k : Int) : Statement (.store k) := ⟨rfl, rfl, .inr ⟨rfl, by simp [Instr.opcode]⟩⟩

end Sys2Proof.Laws.EncodedCells
end

