-- ==== Sys2Proof/Laws/Step.lean ====
section
/-! SUPPORT. Everything a step can do, said once: the effect of each instruction that retires, and the fault otherwise. -/
namespace Sys2Proof.Machine

variable {i : Instr} {s t : State}

/-- The effect of an arithmetic instruction: the two cells popped and the state after the push. -/
def ArithmeticEffect (f : Int → Int → Int) (s u : State) : Prop :=
  ∃ rhs lhs, 1 < s.sp ∧ s.sp ≤ s.cfg.stackCap + 1 ∧ s.stack.read (s.sp - 1) = some rhs ∧
    s.stack.read (s.sp - 2) = some lhs ∧
    u = { s with ip := s.ip + 1, sp := s.sp - 1,
                 stack := s.stack.write (s.sp - 2) (word16 (wrap16 (f (sint16 lhs) (sint16 rhs)))) }

/-- The effect of each instruction that retires, from the state `s` at the start of the step to the working copy `u`. -/
def Effect : Instr → State → State → Prop
  | .halt, s, u => u = { s with ip := s.ip + 1, run := .halted }
  | .add, s, u => ArithmeticEffect (fun lhs rhs => lhs + rhs) s u
  | .sub, s, u => ArithmeticEffect (fun lhs rhs => lhs - rhs) s u
  | .mpy, s, u => ArithmeticEffect (fun lhs rhs => lhs * rhs) s u
  | .dot, s, u => ∃ x, 0 < s.sp ∧ s.stack.read (s.sp - 1) = some x ∧
      u = { s with ip := s.ip + 1, sp := s.sp - 1, output := s.output ++ [sint16 x] }
  | .unlk, s, u => ∃ v, 0 ≤ s.fp ∧ s.fp < s.cfg.stackCap ∧ s.stack.read s.fp.toNat = some v ∧
      u = { s with ip := s.ip + 1, sp := s.fp.toNat, fp := sint16 v }
  | .call tgt, s, u => s.sp < s.cfg.stackCap ∧
      u = { s with ip := tgt, sp := s.sp + 1, stack := s.stack.write s.sp (word16 (s.ip + 2)) }
  | .exit k, s, u => ∃ r n, u = { s with ip := sint16 r, sp := n } ∧ n ≤ s.cfg.stackCap ∧
      match s.cfg.exitOrder with
      | .dropThenPop => (n : Int) = s.sp - k - 1 ∧ n < s.cfg.stackCap ∧ s.stack.read n = some r
      | .popThenDrop => (n : Int) = s.sp - 1 - k ∧ 0 < s.sp ∧ s.stack.read (s.sp - 1) = some r
  | .int k, s, u => s.sp < s.cfg.stackCap ∧
      u = { s with ip := s.ip + 2, sp := s.sp + 1, stack := s.stack.write s.sp (word16 k) }
  | .jmp off, s, u => u = { s with ip := s.ip + 2 + off }
  | .jzr off, s, u => ∃ x, 0 < s.sp ∧ s.stack.read (s.sp - 1) = some x ∧
      u = { s with ip := if isZero x then s.ip + 2 + off else s.ip + 2, sp := s.sp - 1 }
  | .link k, s, u => ∃ n : Nat, (n : Int) = s.sp + 1 + k ∧ n ≤ s.cfg.stackCap ∧ s.sp < s.cfg.stackCap ∧
      u = { s with ip := s.ip + 2, sp := n, fp := s.sp, stack := s.stack.write s.sp (word16 s.fp) }
  | .load k, s, u => ∃ v, (0 ≤ s.fp + k ∧ s.fp + k < s.cfg.stackCap) ∧ s.stack.read (s.fp + k).toNat = some v ∧
      s.sp < s.cfg.stackCap ∧ u = { s with ip := s.ip + 2, sp := s.sp + 1, stack := s.stack.write s.sp v }
  | .store k, s, u => ∃ x, 0 < s.sp ∧ s.stack.read (s.sp - 1) = some x ∧
      (0 ≤ s.fp + k ∧ s.fp + k < s.cfg.stackCap) ∧
      u = { s with ip := s.ip + 2, sp := s.sp - 1, stack := s.stack.write (s.fp + k).toNat x }

/-- What `binary` answers is an arithmetic effect. -/
theorem binary_effect {f : Int → Int → Int} {u : State} (hi : i.size = 1)
    (h : binary f (advance i s) = .ok u) : ArithmeticEffect f s u := by
  simp only [binary, bind_eq_ok, Prod.exists] at h
  obtain ⟨rhs, s₁, h₁, lhs, s₂, h₂, h₃⟩ := h
  obtain ⟨h₁, hr, rfl⟩ := pop_eq_ok.1 h₁
  obtain ⟨h₂, hl, rfl⟩ := pop_eq_ok.1 h₂
  obtain ⟨h₃, rfl⟩ := push_eq_ok.1 h₃
  simp only [advance_sp, advance_stack, withSp_sp, withSp_stack, withSp_cfg, advance_cfg, Nat.sub_sub] at *
  refine ⟨rhs, lhs, by omega, by omega, hr, hl, ?_⟩
  have : s.sp - 2 + 1 = s.sp - 1 := by omega
  simp [advance, State.withSp, State.withIp, State.withCell, hi, this]

theorem binary_cause {f : Int → Int → Int} {c : Cause} (h : binary f s = .error c) :
    c ≠ .noFault ∧ c ≠ .fetchOutOfRange := by
  simp only [binary, bind_eq_error] at h
  rcases h with h | ⟨_, -, h | ⟨_, -, h⟩⟩
  · rcases pop_cause h with rfl | rfl <;> simp
  · rcases pop_cause h with rfl | rfl <;> simp
  · rw [push_cause h]; simp

/-- `exec` ends every instruction in `finish`. -/
theorem exec_finish (i : Instr) (s : State) : ∃ body, exec i s = finish i s body ∧
    (∀ u, body = .ok u → Effect i s u) ∧ (∀ c, body = .error c → c ≠ .noFault ∧ c ≠ .fetchOutOfRange) := by
  cases i with
  | halt => exact ⟨.ok (advance .halt s).halt, rfl, fun u h => by cases h; rfl, fun c h => by cases h⟩
  | jmp off =>
    refine ⟨.ok ((advance (.jmp off) s).withIp (relativeTarget (advance (.jmp off) s) off)), rfl,
      fun u h => ?_, fun c h => by cases h⟩
    cases h; simp [Effect, advance, State.withIp, relativeTarget, Instr.size, Instr.operand]
  | add => exact ⟨_, rfl, fun u h => binary_effect rfl h, fun c h => binary_cause h⟩
  | sub => exact ⟨_, rfl, fun u h => binary_effect rfl h, fun c h => binary_cause h⟩
  | mpy => exact ⟨_, rfl, fun u h => binary_effect rfl h, fun c h => binary_cause h⟩
  | dot =>
    refine ⟨_, rfl, fun u h => ?_, fun c h => ?_⟩
    · simp only [bind_eq_ok, Prod.exists, pop_eq_ok] at h
      obtain ⟨x, s₁, ⟨hsp, hx, rfl⟩, h⟩ := h
      cases h
      exact ⟨x, hsp, hx, rfl⟩
    · simp only [bind_eq_error, pure_eq_ok, reduceCtorEq, and_false, exists_false, or_false] at h
      rcases pop_cause h with rfl | rfl <;> simp
  | int k =>
    refine ⟨_, rfl, fun u h => ?_, fun c h => by rw [push_cause h]; simp⟩
    obtain ⟨hsp, rfl⟩ := push_eq_ok.1 h
    exact ⟨hsp, rfl⟩
  | unlk =>
    refine ⟨_, rfl, fun u h => ?_, fun c h => ?_⟩
    · simp only [bind_eq_ok, Prod.exists, pop_eq_ok, moveSp_eq_ok] at h
      obtain ⟨_, ⟨hr, rfl⟩, v, _, ⟨hsp, hv, rfl⟩, h⟩ := h
      cases h
      simp only [advance_cfg, withSp_sp, withSp_stack, advance_stack] at *
      have : (s.fp + 1).toNat - 1 = s.fp.toNat := by omega
      rw [this] at hv
      exact ⟨v, by omega, by omega, hv, by simp [advance, State.withSp, State.withIp, State.withFp, this,
        Instr.size, Instr.operand]⟩
    · simp only [bind_eq_error, pure_eq_ok, reduceCtorEq, and_false, exists_false, or_false] at h
      rcases h with h | ⟨_, -, h⟩
      · rw [moveSp_cause h]; simp
      · rcases pop_cause h with rfl | rfl <;> simp
  | call tgt =>
    refine ⟨_, rfl, fun u h => ?_, fun c h => ?_⟩
    · simp only [bind_eq_ok, push_eq_ok] at h
      obtain ⟨_, ⟨hsp, rfl⟩, h⟩ := h
      cases h
      exact ⟨hsp, rfl⟩
    · simp only [bind_eq_error, pure_eq_ok, reduceCtorEq, and_false, exists_false, or_false] at h
      rw [push_cause h]; simp
  | exit k =>
    refine ⟨_, rfl, fun u h => ?_, fun c h => ?_⟩
    · cases ho : s.cfg.exitOrder <;> rw [ho] at h <;>
        simp only [exitDropThenPop, exitPopThenDrop, bind_eq_ok, Prod.exists, pop_eq_ok, moveSp_eq_ok] at h
      · obtain ⟨_, ⟨hr, rfl⟩, r, _, ⟨hsp, hv, rfl⟩, h⟩ := h
        cases h
        simp only [advance_sp, advance_cfg, withSp_sp, withSp_stack, advance_stack] at *
        refine ⟨r, _, rfl, by simp; omega, ?_⟩
        simp only [ho]
        exact ⟨by simp; omega, by simp; omega, hv⟩
      · obtain ⟨r, _, ⟨hsp, hv, rfl⟩, _, ⟨hr, rfl⟩, h⟩ := h
        cases h
        simp only [advance_sp, advance_cfg, withSp_sp, advance_stack, withSp_cfg] at *
        refine ⟨r, _, rfl, by simp; omega, ?_⟩
        simp only [ho]
        exact ⟨by simp; omega, hsp, hv⟩
    · cases ho : s.cfg.exitOrder <;> rw [ho] at h <;>
        simp only [exitDropThenPop, exitPopThenDrop, bind_eq_error, pure_eq_ok, reduceCtorEq, and_false, exists_false,
          or_false] at h
      · rcases h with h | ⟨_, -, h⟩
        · rw [moveSp_cause h]; simp
        · rcases pop_cause h with rfl | rfl <;> simp
      · rcases h with h | ⟨_, -, h⟩
        · rcases pop_cause h with rfl | rfl <;> simp
        · rw [moveSp_cause h]; simp
  | jzr off =>
    refine ⟨_, rfl, fun u h => ?_, fun c h => ?_⟩
    · simp only [bind_eq_ok, Prod.exists, pop_eq_ok] at h
      obtain ⟨x, _, ⟨hsp, hx, rfl⟩, h⟩ := h
      cases h
      refine ⟨x, hsp, hx, ?_⟩
      cases isZero x <;> rfl
    · simp only [bind_eq_error, pure_eq_ok, reduceCtorEq, and_false, exists_false, or_false] at h
      rcases pop_cause h with rfl | rfl <;> simp
  | link k =>
    refine ⟨_, rfl, fun u h => ?_, fun c h => ?_⟩
    · simp only [bind_eq_ok, push_eq_ok, moveSp_eq_ok] at h
      obtain ⟨_, ⟨hsp, rfl⟩, hr, rfl⟩ := h
      simp only [advance_sp, advance_cfg, withSp_sp, withCell_cfg, withFp_cfg, withFp_sp, withSp_cfg] at *
      refine ⟨((s.sp + 1 : Nat) + k : Int).toNat, by omega, by omega, hsp, ?_⟩
      simp [advance, State.withSp, State.withIp, State.withFp, State.withCell, Instr.size, Instr.operand]
    · simp only [bind_eq_error] at h
      rcases h with h | ⟨_, -, h⟩
      · rw [push_cause h]; simp
      · rw [moveSp_cause h]; simp
  | load k =>
    refine ⟨_, rfl, fun u h => ?_, fun c h => ?_⟩
    · simp only [bind_eq_ok, push_eq_ok, memRead_eq_ok] at h
      obtain ⟨v, ⟨hr, hv⟩, hsp, rfl⟩ := h
      exact ⟨v, hr, hv, hsp, rfl⟩
    · simp only [bind_eq_error] at h
      rcases h with h | ⟨_, -, h⟩
      · rcases memRead_cause h with rfl | rfl <;> simp
      · rw [push_cause h]; simp
  | store k =>
    refine ⟨_, rfl, fun u h => ?_, fun c h => ?_⟩
    · simp only [bind_eq_ok, Prod.exists, pop_eq_ok, memWrite_eq_ok] at h
      obtain ⟨x, _, ⟨hsp, hx, rfl⟩, hr, rfl⟩ := h
      exact ⟨x, hsp, hx, hr, rfl⟩
    · simp only [bind_eq_error, Prod.exists] at h
      rcases h with h | ⟨_, _, -, h⟩
      · rcases pop_cause h with rfl | rfl <;> simp
      · rw [memWrite_cause h]; simp

/-- An instruction that answers a next state retired with its effect, or faulted with a cause of its own. -/
theorem exec_cases (h : exec i s = .next t) :
    (∃ u, Effect i s u ∧ t = retire i s u) ∨
    (∃ c, c ≠ .noFault ∧ c ≠ .fetchOutOfRange ∧ t = takeFault s c (some i.opcode)) := by
  obtain ⟨body, hb, hok, herr⟩ := exec_finish i s
  rcases finish_cases (hb ▸ h) with ⟨u, hu, rfl⟩ | ⟨c, hc, rfl⟩
  · exact .inl ⟨u, hok u hu, rfl⟩
  · exact .inr ⟨c, (herr c hc).1, (herr c hc).2, rfl⟩

/-- A fetched instruction lies at `ip`: the cells there decode to it. -/
theorem fetch_eq_ok : fetch s = .ok i ↔
    (0 ≤ s.ip ∧ s.ip < s.len) ∧ ∃ rest, decode (s.code.drop s.ip.toNat) = .ok (i, rest) := by
  by_cases h : s.ip < 0 ∨ (s.len : Int) ≤ s.ip
  · have : ¬ (0 ≤ s.ip ∧ s.ip < s.len) := by omega
    simp [fetch, h, this]
  · have : 0 ≤ s.ip ∧ s.ip < s.len := by omega
    simp only [fetch, h, this, if_false, true_and, and_self]
    cases decode (s.code.drop s.ip.toNat) with
    | ok p => simp [Prod.ext_iff]
    | error e => cases e <;> simp

/-- The fault of a failed fetch: no opcode outside the image, the opcode at `ip` otherwise. -/
theorem fetch_error_cases {c : Cause} {op : Option Word16} (h : fetch s = .error (c, op)) :
    (c = .fetchOutOfRange ∧ op = none ∧ (s.ip < 0 ∨ (s.len : Int) ≤ s.ip)) ∨
    (∃ o, op = some o ∧ 0 ≤ s.ip ∧ s.code[s.ip.toNat]? = some o ∧
      (c = .unrecognizedOpcode ∨ c = .operandOutOfRange)) := by
  unfold fetch at h
  split at h
  · cases h; exact .inl ⟨rfl, rfl, by assumption⟩
  · rename_i hr
    have hlen : s.ip.toNat < s.code.length := by
      simp only [State.len] at hr; omega
    have hdrop : s.code.drop s.ip.toNat = s.code[s.ip.toNat] :: s.code.drop (s.ip.toNat + 1) :=
      List.drop_eq_getElem_cons hlen
    rw [hdrop] at h
    refine .inr ⟨s.code[s.ip.toNat], ?_⟩
    cases hd : decode (s.code[s.ip.toNat] :: s.code.drop (s.ip.toNat + 1)) with
    | ok p => rw [hd] at h; cases h
    | error e =>
      rcases decode_error_cases hd with rfl | rfl <;> simp only [hd, Except.error.injEq, Prod.mk.injEq] at h <;>
        obtain ⟨rfl, rfl⟩ := h <;> exact ⟨rfl, by omega, by simp [hlen], by simp⟩

/-- Nothing keeps an enabled state from stepping. -/
theorem notEnabled_eq_none : notEnabled s = none ↔ s.Enabled := by
  cases hh : s.resetHeld <;> cases hr : s.run <;> simp [notEnabled, State.Enabled, hh, hr]

/-- Everything a step can do: nothing else answers a next state. -/
theorem step_cases (h : step s = .next t) : s.Enabled ∧
    ((∃ c op, fetch s = .error (c, op) ∧ t = takeFault s c op) ∨ ∃ i, fetch s = .ok i ∧ exec i s = .next t) := by
  unfold step at h
  split at h
  · cases h
  · rename_i hn
    have hen := notEnabled_eq_none.1 hn
    refine ⟨hen, ?_⟩
    split at h
    · rename_i c op hf; cases h; exact .inl ⟨c, op, hf, rfl⟩
    · rename_i j hf; exact .inr ⟨j, hf, h⟩

/-- The step of an enabled state, by what the fetch answers. -/
theorem step_of_fetch_ok (he : s.Enabled) (hf : fetch s = .ok i) : step s = exec i s := by
  simp [step, notEnabled_eq_none.2 he, hf]

theorem step_of_fetch_error {c : Cause} {op : Option Word16} (he : s.Enabled) (hf : fetch s = .error (c, op)) :
    step s = .next (takeFault s c op) := by
  simp [step, notEnabled_eq_none.2 he, hf]

/-- The run state after an instruction's effect: unchanged, but for `HALT`. -/
theorem effect_run {u : State} (h : Effect i s u) : (u.run = s.run ∧ i ≠ .halt) ∨ (i = .halt ∧ u.run = .halted) := by
  cases i <;> simp only [Effect, ArithmeticEffect] at h
  case halt => exact .inr ⟨rfl, h ▸ rfl⟩
  all_goals first
    | (obtain ⟨_, _, _, _, _, _, rfl⟩ := h; simp)
    | (obtain ⟨_, _, rfl, _⟩ := h; simp)

/-- What no instruction's effect changes. -/
theorem effect_same {u : State} (h : Effect i s u) :
    u.record = s.record ∧ u.code = s.code ∧ u.cfg = s.cfg ∧ u.resetHeld = s.resetHeld ∧ u.trace = s.trace := by
  cases i <;> simp only [Effect, ArithmeticEffect] at h
  all_goals first
    | (obtain ⟨_, _, _, _, _, _, rfl⟩ := h; simp)
    | (obtain ⟨_, _, rfl, _⟩ := h; simp)

/-- One more step of a run that goes on. -/
theorem run_succ_of_next (M : Host.Core) (s t : M.State) (n : Nat) (h : M.step s = .next t) :
    M.run (n + 1) s = M.run n t := by
  simp only [Host.Core.run, h]

/-- Retiring keeps the invariant of the working copy. -/
theorem retire_inv {u : State} (h : u.Inv) : (retire i s u).Inv := by
  obtain ⟨a1, a2, a3, a4, a5, a6, a7, a8, a9, a10, a11⟩ := h
  constructor <;> simp_all [State.len] <;> assumption

end Sys2Proof.Machine
end

