-- ==== Sys2Proof/Tests/Slice0.lean ====
section
/-! SUPPORT. Small tests of one step each, their expected results from 95_test_vectors.md (V numbers) or read off the
spec's tables, and a witness for the hypotheses of every statement. -/
namespace Sys2Proof.Tests

open Sys2Proof Sys2Proof.Machine Sys2Proof.Claims

/-- Stack memory from index `n` on; `none` is a cell never written. -/
def cellsFrom : Nat → List (Option Word16) → Memory
  | _, [] => []
  | n, none :: cs => cellsFrom (n + 1) cs
  | n, some v :: cs => (n, v) :: cellsFrom (n + 1) cs

/-- A running engine with an image, some stack cells, and its registers. -/
def engine (code : List Word16) (cells : List (Option Word16)) (ip : Int) (sp : Nat) (fp : Int) : State :=
  { State.launch Config.default code with ip := ip, sp := sp, fp := fp, stack := cellsFrom 0 cells }

/-- The same engine with other parameters. -/
def withCap (s : State) (cap : Nat) : State := { s with cfg := { s.cfg with stackCap := cap } }
def popFirst (s : State) : State := { s with cfg := { s.cfg with exitOrder := .popThenDrop } }
def traced (s : State) : State := { s with cfg := { s.cfg with traceEnabled := true } }

/-- The next state of an answer; the state after reset where there is none, whose run state no test expects. -/
def after : Answer → State
  | .next t => t
  | _ => { State.reset with resetHeld := true }

/-- What a test looks at: `ip`, `sp`, `fp` and the first stack cells. -/
def view (n : Nat) (t : State) : Int × Nat × Int × List (Option Word16) :=
  (t.ip, t.sp, t.fp, (List.range n).map t.stack.read)

/-- The cause, address and opcode of a state's fault record, with its run state. -/
def faultView (t : State) : RunState × Cause × Int × Option Word16 :=
  (t.run, t.record.cause, t.record.addr, t.record.opcode)

/-! ## Well-formedness: an ill-formed term for each bound (30_encoding.md R61) -/

theorem test_illformed_above : (Instr.int 32768).wellFormed = false := by decide
theorem test_illformed_below : (Instr.jmp (-32769)).wellFormed = false := by decide
theorem test_wellformed_bounds :
    (Instr.int 32767).wellFormed = true ∧ (Instr.jmp (-32768)).wellFormed = true ∧ Instr.halt.wellFormed = true := by
  decide

/-! ## Decoding, each word from the opcode map of 30_encoding.md R62 -/

theorem test_decode_halt : decode [0x0000] = .ok (.halt, []) := by decide
theorem test_decode_arithmetic :
    decode [0x0001] = .ok (.add, []) ∧ decode [0x0003] = .ok (.mpy, []) ∧ decode [0x0004] = .ok (.sub, []) := by decide
theorem test_decode_output_literals :
    decode [0x0002] = .ok (.dot, []) ∧ decode [0x0009, 0x8000] = .ok (.int (-32768), []) := by decide
theorem test_decode_frame :
    decode [0x0005] = .ok (.unlk, []) ∧ decode [0x000C, 0x0001] = .ok (.link 1, []) ∧
    decode [0x000D, 0xFFFE] = .ok (.load (-2), []) ∧ decode [0x000E, 0x0005] = .ok (.store 5, []) := by decide
theorem test_decode_control :
    decode [0x0007, 0x0006] = .ok (.call 6, []) ∧ decode [0x0008, 0x0001] = .ok (.exit 1, []) ∧
    decode [0x000A, 0xFFF0] = .ok (.jmp (-16), []) ∧ decode [0x000B, 0x0003] = .ok (.jzr 3, []) := by decide
theorem test_decode_illegal :
    decode [0x0006] = .error (.unrecognizedOpcode 6) ∧ decode [0x000F] = .error (.unrecognizedOpcode 15) ∧
    decode [0xFFFF, 0x0000] = .error (.unrecognizedOpcode 0xFFFF) := by decide
theorem test_decode_table_word : decodeTableWord 16 0x0009 = some (.int 0) ∧
    decodeTableWord 32 0xFFFC0009 = some (.int (-4)) ∧ decodeTableWord 16 0x0006 = none := by decide
theorem test_encode_int : encode (.int (-4)) = [0x0009, 0xFFFC] := by decide

/-! ## Cycle: V1, V2, V4, V8, V9, V10 -/

theorem test_empty_image_V1 :
    faultView (after (step State.reset)) = (.faulted, .fetchOutOfRange, 0, none) ∧
    statusReg (after (step State.reset)) = 0x0022 := by decide
theorem test_missing_operand_V2 : let t := after (step (engine [9] [] 0 0 0))
    faultView t = (.faulted, .operandOutOfRange, 0, some 9) ∧ statusReg t = 0x0132 ∧ faultOpcReg t = 9 ∧ t.ip = 0 := by
  decide
theorem test_unrecognized_V4 : let t := after (step (engine [6] [] 0 0 0))
    faultView t = (.faulted, .unrecognizedOpcode, 0, some 6) ∧ statusReg t = 0x0112 := by decide
theorem test_negative_ip_V9 : let t := after (step (engine [0] [] (-1) 0 0))
    faultView t = (.faulted, .fetchOutOfRange, -1, none) ∧ faultAddrReg t = 0x1FFFF := by decide
theorem test_fetch_at_len_V10 :
    faultView (after (step (engine [0, 0, 0, 0, 0] [] 5 0 0))) = (.faulted, .fetchOutOfRange, 5, none) := by decide
theorem test_placed_instruction_runs : view 1 (after (step (State.reset.withFetchWord 32 0x00030009)))
    = (2, 1, 0, [some 3]) := by decide

/-! ## Instructions -/

theorem test_halt_V12 : let t := after (exec .halt (engine [] [] 40 9 7))
    view 0 t = (41, 9, 7, []) ∧ t.run = .halted ∧ statusReg t = 0x0001 := by decide
theorem test_add_wraps_V14 :
    view 2 (after (exec .add (engine [] [some 0x7FFF, some 1] 0 2 0))) = (1, 1, 0, [some 0x8000, some 1]) := by decide
theorem test_add_underflow_V18 : let t := after (exec .add (engine [] [some 5] 3 1 0))
    view 1 t = (3, 1, 0, [some 5]) ∧ faultView t = (.faulted, .stackUnderflow, 3, some 1) ∧ statusReg t = 0x0152 := by
  decide
theorem test_sub_order_V23 :
    view 1 (after (exec .sub (engine [] [some 3, some 10] 0 2 0))) = (1, 1, 0, [some 0xFFF9]) := by decide
theorem test_sub_wraps_V25 :
    view 1 (after (exec .sub (engine [] [some 0, some 0x8000] 0 2 0))) = (1, 1, 0, [some 0x8000]) := by decide
theorem test_mpy_V34_V35 :
    view 1 (after (exec .mpy (engine [] [some 300, some 300] 0 2 0))) = (1, 1, 0, [some 24464]) ∧
    view 1 (after (exec .mpy (engine [] [some 0xFED4, some 300] 0 2 0))) = (1, 1, 0, [some 0xA070]) := by decide
theorem test_dot_V41 : let t := after (exec .dot (engine [] [some 0xFFFF] 0 1 0))
    view 1 t = (1, 0, 0, [some 0xFFFF]) ∧ t.output = [-1] := by decide
theorem test_dot_unwritten_V44 : let t := after (exec .dot (engine [] [none] 0 1 0))
    faultView t = (.faulted, .uninitializedRead, 0, some 2) ∧ t.output = [] ∧ statusReg t = 0x0182 := by decide
theorem test_int_V48 :
    view 2 (after (exec (.int (-1)) (engine [] [some 1] 4 1 0))) = (6, 2, 0, [some 1, some 0xFFFF]) := by decide
theorem test_int_overflow_V49 :
    faultView (after (exec (.int 1) (withCap (engine [] [some 5, some 6] 0 2 0) 2)))
      = (.faulted, .stackOverflow, 0, some 9) := by decide
theorem test_load_V51 :
    view 4 (after (exec (.load (-2)) (engine [] [some 5, some 4, some 0] 0 3 2)))
      = (2, 4, 2, [some 5, some 4, some 0, some 5]) := by decide
theorem test_load_exact_index_V57 :
    faultView (after (exec (.load (-32768)) (engine [] [some 5] 0 1 (-32768))))
      = (.faulted, .indexOutOfRange, 0, some 13) := by decide
theorem test_store_V63 :
    view 6 (after (exec (.store 5) (engine [] [some 5, some 6] 0 2 0)))
      = (2, 1, 0, [some 5, some 6, none, none, none, some 6]) := by decide
theorem test_store_order_V66 :
    faultView (after (exec (.store 0) (engine [] [] 0 0 (-5000)))) = (.faulted, .stackUnderflow, 0, some 14) := by
  decide
theorem test_link_V67_V70 :
    view 4 (after (exec (.link 1) (engine [] [some 5, some 4] 0 2 0))) = (2, 4, 2, [some 5, some 4, some 0, none]) ∧
    view 3 (after (exec (.link (-1)) (engine [] [some 5, some 4] 0 2 0))) = (2, 2, 2, [some 5, some 4, some 0]) := by
  decide
theorem test_link_bounds_V72_V73 :
    (after (exec (.link 1021) (engine [] [] 0 2 0))).sp = 1024 ∧
    (after (exec (.link 1022) (engine [] [] 0 2 0))).record.cause = .spOutOfRange := by decide
theorem test_unlk_V81 :
    view 3 (after (exec .unlk (engine [] [some 4, some 0x8000, some 6] 0 3 1)))
      = (1, 1, -32768, [some 4, some 0x8000, some 6]) := by decide
theorem test_unlk_faults_V77_V79 :
    (after (exec .unlk (engine [] [] 0 0 (-1)))).record.cause = .stackUnderflow ∧
    (after (exec .unlk (engine [] [] 0 0 1024))).record.cause = .spOutOfRange := by decide
theorem test_call_V82 :
    view 2 (after (exec (.call 6) (engine [] [some 5] 2 1 0))) = (6, 2, 0, [some 5, some 4]) := by decide
theorem test_exit_orders_V87 : let s := engine [] [some 9, some 4, some 7] 0 3 0
    view 0 (after (exec (.exit 1) s)) = (4, 1, 0, []) ∧ view 0 (after (exec (.exit 1) (popFirst s))) = (7, 1, 0, []) := by
  decide
theorem test_exit_faults_V90_V91 : let s := engine [] [some 1, some 2] 0 2 0
    (after (exec (.exit 3) s)).record.cause = .spOutOfRange ∧
    view 0 (after (exec (.exit (-1)) (engine [] [some 4, some 6] 0 1 0))) = (6, 1, 0, []) := by decide
theorem test_jzr_V94_V95 :
    view 0 (after (exec (.jzr 3) (engine [] [some 0] 2 1 0))) = (7, 0, 0, []) ∧
    view 0 (after (exec (.jzr 3) (engine [] [some 0x8000] 2 1 0))) = (4, 0, 0, []) := by decide
theorem test_jmp_V100_V104 :
    (after (exec (.jmp 4) (engine [] [] 10 0 0))).ip = 16 ∧
    (after (exec (.jmp 32767) (engine [] [] 1022 0 0))).ip = 33791 := by decide
/-- The first record of E1 in 95_test_vectors.md. -/
theorem test_trace_record_E1 : (after (step (traced (engine [9, 3] [] 0 0 0)))).trace
    = [{ addr := 0, opcode := 9, operand := some 3, stack := [some 3] }] := by decide

/-! ## The encoder: V107, V114, V117 to V120 -/

theorem test_line_paren_V107 : readLine ['I', 'N', 'T', '(', '-', '4', ')'] = .ok (.int (-4)) := by decide
theorem test_line_malformed_V114 :
    readLine ['I', 'N', 'T', '5'] = .error (.malformedOperand ['I', 'N', 'T', '5']) ∧
    readLine ['I', 'N', 'T', ' ', '3', 'x'] = .error (.malformedOperand ['I', 'N', 'T', ' ', '3', 'x']) := by decide
theorem test_line_nullary_V117_V118 :
    readLine ['H', 'A', 'L', 'T', 'E', 'D'] = .ok .halt ∧ readLine ['A', 'D', 'D', 'X'] = .ok .add := by decide
theorem test_line_unrecognized_V119 :
    transcribe 1024 [['H', 'A', 'L', 'T'], ['a', 'd', 'd']] = .error (.unrecognizedInstruction ['a', 'd', 'd']) ∧
    referenceEncode [['H', 'A', 'L', 'T'], ['a', 'd', 'd']]
      = .ok ([0], [.unrecognizedInstruction ['a', 'd', 'd']]) := by decide
theorem test_image_overflow_V120 :
    transcribe 3 [['I', 'N', 'T', ' ', '0'], ['I', 'N', 'T', ' ', '0']]
      = .error (.imageOverflow ['I', 'N', 'T', ' ', '0']) := by decide

/-! ## Witnesses: states and operands that meet the hypotheses of each statement, clause by clause -/

theorem test_witness_DecodeOfEncode :
    (Instr.link (-32768)).wellFormed = true ∧ (Instr.link 32767).wellFormed = true ∧ Instr.unlk.wellFormed = true := by
  decide
theorem test_witness_DecodedCells : decode [0x000B, 0x8000, 0x0001] = .ok (.jzr (-32768), [0x0001]) := by decide
theorem test_witness_IllegalOpcodes :
    decode [0x0006, 0x0001] = .error (.unrecognizedOpcode 0x0006) ∧ (0x000F : Word16).toNat = 15 := by decide
theorem test_witness_OpcodeLength :
    (0x0005 : Word16).toNat ≤ 5 ∧ 7 ≤ (0x0007 : Word16).toNat ∧ (0x000E : Word16).toNat ≤ 14 := by decide
theorem test_witness_Fits16 : Fits16 (-32768) ∧ Fits16 32767 := by decide
theorem test_witness_StepRuns : let s := engine [0, 9, 3] [] 1 0 0
    s.Enabled ∧ 0 ≤ s.ip ∧ decode (s.code.drop s.ip.toNat) = .ok (.int 3, []) := by decide
theorem test_witness_FetchOutside :
    (engine [0] [] (-1) 0 0).Enabled ∧ (engine [0] [] (-1) 0 0).ip < 0 ∧
    ((engine [0] [] 1 0 0).len : Int) ≤ (engine [0] [] 1 0 0).ip := by decide
theorem test_witness_UnrecognizedOpcode : let s := engine [6, 15] [] 0 0 0
    s.Enabled ∧ OpcodeAtIp s 6 ∧ OpcodeAtIp { s with ip := 1 } 15 ∧ 15 ≤ (15 : Word16).toNat := by decide
/-- A unary opcode in the last cell of the image. -/
def lastCell (op : Word16) : State := engine [0, op] [] 1 0 0
theorem test_witness_MissingOperand :
    ((lastCell 7).Enabled ∧ OpcodeAtIp (lastCell 7) 7 ∧ (lastCell 7).ip + 1 = (lastCell 7).len) ∧
    ((lastCell 9).Enabled ∧ OpcodeAtIp (lastCell 9) 9 ∧ (lastCell 9).ip + 1 = (lastCell 9).len) ∧
    ((lastCell 13).Enabled ∧ OpcodeAtIp (lastCell 13) 13 ∧ (lastCell 13).ip + 1 = (lastCell 13).len) ∧
    ((lastCell 14).Enabled ∧ OpcodeAtIp (lastCell 14) 14 ∧ (lastCell 14).ip + 1 = (lastCell 14).len) := by decide
theorem test_witness_Terminal : let s := after (exec .halt (engine [0] [] 0 0 0)); let f := after (step State.reset)
    s.run = .halted ∧ f.run = .faulted ∧ (after (hostAct .clear s)).run = .halted ∧ HostAction.clear ≠ .assertReset := by
  decide
theorem test_witness_NoStepInReset : (assertReset State.reset).resetHeld = true := by decide
theorem test_witness_Enabled : State.reset.Enabled := by decide

/-- An engine with an image, about to run `INT 3`, that meets the invariant. -/
theorem test_witness_Inv : (engine [9, 3, 0] [some 5, some 4] 0 2 (-32768)).Inv := by constructor <;> decide
theorem test_witness_StepKeeps : ∃ t, step (engine [9, 3, 0] [some 5, some 4] 0 2 (-32768)) = .next t := ⟨_, rfl⟩
theorem test_witness_Launch : Config.default.wf ∧ [(9 : Word16), 3].length ≤ Config.default.codeCap := by decide
theorem test_witness_OnlyHalt : ∃ t, step (engine [0] [] 0 0 0) = .next t ∧ t.run = .halted := ⟨_, rfl, by decide⟩
theorem test_witness_OnlyDot : let s := engine [2] [some 7] 0 1 0
    ∃ t, step s = .next t ∧ t.output ≠ s.output := ⟨after (step (engine [2] [some 7] 0 1 0)), rfl, by decide⟩
theorem test_witness_OnlyLinkUnlk : let s := engine [12, 1, 5] [some 5] 0 1 0
    (∃ t, step s = .next t ∧ t.fp ≠ s.fp) ∧ (∃ t, step { s with ip := 2 } = .next t ∧ t.fp ≠ s.fp) :=
  ⟨⟨_, rfl, by decide⟩, ⟨_, rfl, by decide⟩⟩
theorem test_witness_StackCells : let s := engine [1, 9, 3, 14, 5] [some 5, some 6] 0 2 0
    (∃ t, step s = .next t ∧ t.stack.read 0 ≠ s.stack.read 0) ∧
    (∃ t, step { s with ip := 1 } = .next t ∧ t.stack.read 2 ≠ s.stack.read 2) ∧
    (∃ t, step { s with ip := 3 } = .next t ∧ t.stack.read 5 ≠ s.stack.read 5) :=
  ⟨⟨_, rfl, by decide⟩, ⟨_, rfl, by decide⟩, ⟨_, rfl, by decide⟩⟩
theorem test_witness_Trace : let s := traced (engine [9, 3, 1] [] 0 0 0)
    s.cfg.traceEnabled = true ∧ (∃ t, step s = .next t ∧ t.run ≠ .faulted) ∧
    (∃ t, step { s with ip := 2 } = .next t ∧ t.run = .faulted) :=
  ⟨by decide, ⟨_, rfl, by decide⟩, ⟨_, rfl, by decide⟩⟩
theorem test_witness_FaultCauses : let s := engine [] [] 0 0 0
    s.sp ≤ s.cfg.stackCap ∧ s.run ≠ .faulted ∧ ∃ t, exec .add s = .next t ∧ t.run = .faulted :=
  ⟨by decide, by decide, ⟨_, rfl, by decide⟩⟩
theorem test_witness_Arithmetic : let s := withCap (engine [] [some 3, some 4] 0 2 0) 2
    2 ≤ s.sp ∧ s.sp ≤ s.cfg.stackCap ∧ s.stack.read (s.sp - 1) = some 4 ∧ s.stack.read (s.sp - 2) = some 3 := by decide
theorem test_witness_ArithmeticFaults :
    (engine [] [] 0 0 0).sp = 0 ∧
    (let s := engine [] [some 5, none] 0 2 0; 0 < s.sp ∧ s.stack.read (s.sp - 1) = none) ∧
    (let s := engine [] [some 5] 0 1 0; s.sp = 1 ∧ s.stack.read 0 = some 5) ∧
    (let s := engine [] [none, some 5] 0 2 0;
      1 < s.sp ∧ s.stack.read (s.sp - 1) = some 5 ∧ s.stack.read (s.sp - 2) = none) := by decide
/-- The pops of `DOT`, `JZR`, `STORE` and of `EXIT` under PopThenDrop: a value, none, an unwritten cell. -/
theorem test_witness_Pop :
    (let s := engine [] [some 7] 0 1 0; 0 < s.sp ∧ s.stack.read (s.sp - 1) = some 7) ∧
    (engine [] [some 7] 0 0 0).sp = 0 ∧
    (let s := engine [] [none] 0 1 0; 0 < s.sp ∧ s.stack.read (s.sp - 1) = none) := by decide
theorem test_witness_OnlyDotOutput : ∃ t, Instr.int 3 ≠ .dot ∧ exec (.int 3) (engine [] [] 0 0 0) = .next t :=
  ⟨_, by decide, rfl⟩
/-- The pushes of `INT` and `CALL`: the last free cell, and none. -/
theorem test_witness_Push : let s := withCap (engine [] [some 5] 0 1 0) 2
    Fits16 (-32768) ∧ s.sp < s.cfg.stackCap ∧ (withCap s 1).cfg.stackCap ≤ (withCap s 1).sp := by decide
theorem test_witness_Load : let s := engine [] [some 5, none, some 9] 0 3 2
    (InStack s (s.fp + -2) ∧ s.stack.read (s.fp + -2).toNat = some 5 ∧ s.sp < s.cfg.stackCap) ∧
    ¬ InStack s (s.fp + -3) ∧ ¬ InStack s (s.fp + 1022) ∧
    (InStack s (s.fp + 1021) ∧ s.stack.read (s.fp + 1021).toNat = none) ∧
    (let s := withCap s 3; InStack s (s.fp + 0) ∧ s.stack.read (s.fp + 0).toNat = some 9 ∧ s.cfg.stackCap ≤ s.sp) := by
  decide
theorem test_witness_Store : let s := engine [] [some 5] 0 1 0
    (0 < s.sp ∧ s.stack.read (s.sp - 1) = some 5 ∧ InStack s (s.fp + 1023)) ∧ ¬ InStack s (s.fp + 1024) := by decide
theorem test_witness_Link : let s := engine [] [] 0 2 0
    (s.sp < s.cfg.stackCap ∧ 0 ≤ (s.sp : Int) + 1 + -3 ∧ (s.sp : Int) + 1 + 1021 ≤ s.cfg.stackCap ∧ Fits16 s.fp) ∧
    (s.sp : Int) + 1 + -4 < 0 ∧ (s.cfg.stackCap : Int) < s.sp + 1 + 1022 ∧
    (withCap s 2).cfg.stackCap ≤ (withCap s 2).sp := by decide
theorem test_witness_Unlk : let s := engine [] [some 4, none] 0 2 0
    (InStack s s.fp ∧ s.stack.read s.fp.toNat = some 4) ∧
    (engine [] [] 0 0 (-2)).fp < -1 ∧ (engine [] [] 0 0 (-1)).fp = -1 ∧
    ((engine [] [] 0 0 1024).cfg.stackCap : Int) ≤ (engine [] [] 0 0 1024).fp ∧
    (let s := { s with fp := 1 }; InStack s s.fp ∧ s.stack.read s.fp.toNat = none) := by decide
theorem test_witness_LinkUnlk : let s := engine [] [some 5] 0 1 (-7)
    Fits16 s.fp ∧ s.run ≠ .faulted ∧ ∃ t, exec (.link 1) s = .next t ∧ t.run ≠ .faulted ∧
      t.cfg = s.cfg ∧ t.fp = s.sp ∧ t.stack.read s.sp = some (word16 s.fp) :=
  ⟨by decide, by decide, ⟨_, rfl, by decide, rfl, by decide, by decide⟩⟩
theorem test_witness_CallTarget : let s := engine [7, 100] [] 0 0 0
    s.Enabled ∧ (s.len : Int) ≤ 100 ∧ 0 ≤ s.ip ∧ s.ip + 2 ≤ s.len := by decide
theorem test_witness_CallInv : (engine [7, 100] [] 0 0 0).Inv := by constructor <;> decide
theorem test_witness_ExitDropThenPop : let s := engine [] [some 9, some 4, none] 0 3 0
    s.cfg.exitOrder = .dropThenPop ∧
    (0 < (s.sp : Int) - 1 ∧ (s.sp : Int) - 1 ≤ s.cfg.stackCap ∧ s.stack.read ((s.sp : Int) - 1 - 1).toNat = some 4) ∧
    (s.sp : Int) - 4 < 0 ∧ (s.cfg.stackCap : Int) < s.sp - (-1022) ∧ (s.sp : Int) - 3 = 0 ∧
    (0 < (s.sp : Int) - 0 ∧ s.stack.read ((s.sp : Int) - 0 - 1).toNat = none) := by decide
theorem test_witness_ExitPopThenDrop : let s := popFirst (engine [] [some 9, some 4] 0 2 0)
    s.cfg.exitOrder = .popThenDrop ∧
    (0 < s.sp ∧ s.stack.read (s.sp - 1) = some 4 ∧ 0 ≤ (s.sp : Int) - 1 - 1 ∧ (s.sp : Int) - 1 - 1 ≤ s.cfg.stackCap) ∧
    (s.sp : Int) - 1 - 2 < 0 ∧ (s.cfg.stackCap : Int) < s.sp - 1 - (-1024) := by decide
theorem test_witness_ExitPopThenDrop_faults :
    (popFirst (engine [] [] 0 0 0)).cfg.exitOrder = .popThenDrop ∧ (popFirst (engine [] [] 0 0 0)).sp = 0 ∧
    (let s := popFirst (engine [] [none] 0 1 0); 0 < s.sp ∧ s.stack.read (s.sp - 1) = none) := by decide
theorem test_witness_ExitZero : let s := engine [] [some 9] 0 1024 0; s.sp ≤ s.cfg.stackCap := by decide
theorem test_witness_CallExit : let s := engine [7, 100] [] 0 0 0
    s.run ≠ .faulted ∧ 0 ≤ s.ip ∧ s.ip + 2 ≤ s.len ∧ ∃ t, exec (.call 100) s = .next t ∧ t.run ≠ .faulted ∧
      t.cfg = s.cfg ∧ t.sp = s.sp + 1 :=
  ⟨by decide, by decide, by decide, ⟨_, rfl, by decide, rfl, by decide⟩⟩
theorem test_witness_CallLink : let s := engine [7, 100] [some 8] 0 1 0
    s.run ≠ .faulted ∧ ∃ t, exec (.call 100) s = .next t ∧ t.run ≠ .faulted ∧
      ∃ u, exec (.link 2) t = .next u ∧ u.run ≠ .faulted ∧ 1 ≤ s.sp :=
  ⟨by decide, ⟨_, rfl, by decide, ⟨_, rfl, by decide, by decide⟩⟩⟩
theorem test_witness_JmpLoop : let s := engine [0, 10, 0xFFFE] [] 1 0 0
    (s.Enabled ∧ 0 ≤ s.ip ∧ s.cfg.traceEnabled = false ∧ s.code.drop s.ip.toNat = [0x000A, 0xFFFE]) ∧
    (traced s).Enabled ∧ (traced s).code.drop (traced s).ip.toNat = [0x000A, 0xFFFE] := by decide
theorem test_witness_MemWrite : let s := engine [] [] 0 0 0
    InStack s 0 ∧ InStack s 1023 ∧ ¬ InStack s 1024 ∧ ¬ InStack s (-1) := by decide
theorem test_witness_Boot : ([9, 3, 0] : List Word16).length ≤ State.reset.cfg.codeCap := by decide
theorem test_witness_LoadFull : let s := assertReset { State.launch { Config.default with codeCap := 1 } [0] with ip := 0 }
    s.resetHeld = true ∧ s.len = s.cfg.codeCap := by decide
theorem test_witness_HostReleased : State.reset.resetHeld = false ∧ HostAction.load 3 ≠ .step ∧
    HostAction.load 3 ≠ .assertReset ∧ ∃ t, hostAct (.load 3) State.reset = .next t :=
  ⟨by decide, by decide, by decide, ⟨_, rfl⟩⟩
theorem test_witness_CodeChanges : let s := assertReset (engine [9, 3] [] 0 0 0)
    (∃ t, hostAct .clear s = .next t ∧ t.code ≠ s.code) ∧ (∃ t, hostAct (.load 3) s = .next t ∧ t.code ≠ s.code) :=
  ⟨⟨_, rfl, by decide⟩, ⟨_, rfl, by decide⟩⟩
theorem test_witness_RunWritesNoCode : let s := engine [9, 3, 0] [] 0 0 0
    ∃ t, core.run 2 s = .next t ∧ t.run = .halted ∧ t.code = [9, 3, 0] := ⟨_, rfl, by decide, by decide⟩
theorem test_witness_HostInv : ∃ t, hostAct .assertReset (engine [9, 3, 0] [some 5, some 4] 0 2 (-32768)) = .next t :=
  ⟨_, rfl⟩
theorem test_witness_Status : State.reset.run ≠ .faulted ∧ (after (step State.reset)).run = .faulted := by decide
theorem test_witness_NullaryLine :
    (['S', 'U', 'B'], Instr.sub) ∈ [(['D', 'O', 'T'], Instr.dot), (['S', 'U', 'B'], .sub)] := by decide
/-- An operand of each sign, and each shape of the grammar of R73: `(-4)`, a tab, a space and `+07`, `(32768)` out of
range after a separator. -/
theorem test_witness_IntText :
    IntText ['-', '4'] (-4) ∧ IntText ['+', '0', '7'] 7 ∧ IntText ['3', '2', '7', '6', '8'] 32768 :=
  ⟨.minus (ds := [4]) (by simp), .plus (ds := [0, 7]) (by simp), .unsigned (ds := [3, 2, 7, 6, 8]) (by simp)⟩
theorem test_witness_UnaryLine : (['L', 'I', 'N', 'K'], LineShape.unary .link) ∈ asmTable ∧
    RestText ['(', '-', '4', ')'] (-4) ∧ RestText ['\t', ' ', '+', '0', '7', '\r'] 7 ∧
    RestText [' ', '(', '3', '2', '7', '6', '8', ')', ' '] 32768 ∧ Fits16 7 ∧ ¬ Fits16 32768 :=
  ⟨by simp [asmTable], .paren (trail := []) test_witness_IntText.1 (by simp [TrailText]),
    .plain (sep := ['\t', ' ']) (trail := ['\r']) (by simp [SepText]) test_witness_IntText.2.1 (by simp [TrailText]),
    .sepParen (sep := [' ']) (trail := [' ']) (by simp [SepText]) test_witness_IntText.2.2 (by simp [TrailText]), by decide, by decide⟩
/-- A rest outside the grammar: no separator (V114). -/
theorem test_witness_UnaryLine_outside : ∀ n, ¬ RestText ['5'] n := by
  intro n h
  generalize hr : (['5'] : Line) = rest at h
  cases h with
  | paren => cases hr
  | @plain sep _ _ _ hs _ _ | @sepParen sep _ _ _ hs _ _ =>
    obtain ⟨hne, hm⟩ := hs
    obtain ⟨c, sep, rfl⟩ := List.exists_cons_of_ne_nil hne
    rw [List.cons_append, List.cons.injEq] at hr
    exact absurd (hm c List.mem_cons_self) (by rw [← hr.1]; decide)
theorem test_witness_Admitted :
    readLine ['J', 'M', 'P', ' ', '-', '2'] = .ok (.jmp (-2)) ∧
    transcribe 2 [['J', 'M', 'P', ' ', '-', '2']] = .ok [0x000A, 0xFFFE] := by decide
theorem test_witness_UnrecognizedLine : (recognise asmTable ['F', 'O', 'O', ' ', '1']).isNone = true := by decide
theorem test_witness_FirstBadLine : transcribe 3 [['I', 'N', 'T', ' ', '0']] = .ok [9, 0] ∧
    readLine ['I', 'N', 'T', '5'] = .error (.malformedOperand ['I', 'N', 'T', '5']) ∧
    readLine ['J', 'M', 'P', ' ', '0'] = .ok (.jmp 0) ∧ 3 < [(9 : Word16), 0].length + (encode (.jmp 0)).length := by
  decide
/-- The source of 95_test_vectors.md on `FOO 1`: no line of it has a malformed operand. -/
theorem test_witness_ReferenceEncoder :
    let source := [['I', 'N', 'T', ' ', '3'], ['F', 'O', 'O', ' ', '1'], ['H', 'A', 'L', 'T']]
    (∀ line ∈ source, ∀ text, readLine line ≠ .error (.malformedOperand text)) ∧
    referenceEncode source = .ok ([9, 3, 0], [.unrecognizedInstruction ['F', 'O', 'O', ' ', '1']]) := by
  have h1 : readLine ['I', 'N', 'T', ' ', '3'] = .ok (.int 3) := by decide
  have h2 : readLine ['F', 'O', 'O', ' ', '1'] = .error (.unrecognizedInstruction ['F', 'O', 'O', ' ', '1']) := by decide
  have h3 : readLine ['H', 'A', 'L', 'T'] = .ok .halt := by decide
  refine ⟨?_, by decide⟩
  simp only [List.mem_cons, List.not_mem_nil, or_false, forall_eq_or_imp, forall_eq, h1, h2, h3]
  simp

end Sys2Proof.Tests
end

/-! Proofs about what a step does to the run state and the output (10_state.md R26, R31). -/
namespace Sys2Proof.Machine

open Sys2Proof.Claims

variable {i : Instr} {s t u : State}

/-- A fetched instruction was selected by the opcode cell at `ip` (40_cycle.md R81, R84). -/
theorem opcodeAtIp_of_fetch_ok (hf : fetch s = .ok i) : OpcodeAtIp s i.opcode := by
  obtain ⟨⟨hip, -⟩, rest, hd⟩ := fetch_eq_ok.1 hf
  exact ⟨hip, List.head?_drop.symm.trans (decode_ok_opcode hd)⟩

/-- The cell `0x0000` at `ip` is fetched as `HALT` (30_encoding.md R62). -/
theorem fetch_eq_halt_of_opcodeAtIp (h : OpcodeAtIp s 0x0000) : fetch s = .ok .halt := by
  obtain ⟨hip, hcell⟩ := h
  obtain ⟨hlt, hget⟩ := List.getElem?_eq_some_iff.1 hcell
  refine fetch_eq_ok.2 ⟨⟨hip, by simp only [State.len]; omega⟩, s.code.drop (s.ip.toNat + 1), ?_⟩
  rw [List.drop_eq_getElem_cons hlt, hget]
  rfl

/-- A step takes a fault, or retires the instruction fetched at `ip` with its effect (40_cycle.md R85, R86). -/
theorem step_faults_or_retires (h : step s = .next t) :
    (∃ c op, t = takeFault s c op) ∨ ∃ i u, fetch s = .ok i ∧ Effect i s u ∧ t = retire i s u := by
  obtain ⟨-, ⟨c, op, -, ht⟩ | ⟨i, hf, he⟩⟩ := step_cases h
  · exact .inl ⟨c, op, ht⟩
  · rcases exec_cases he with ⟨u, hu, ht⟩ | ⟨c, -, -, ht⟩
    · exact .inr ⟨i, u, hf, hu, ht⟩
    · exact .inl ⟨c, _, ht⟩

/-- The output after an instruction's effect: unchanged, but for `DOT`, which appends the signed top cell. -/
theorem effect_output (h : Effect i s u) : u.output = s.output ∨
    (i = .dot ∧ ∃ x, 0 < s.sp ∧ s.stack.read (s.sp - 1) = some x ∧ u.output = s.output ++ [sint16 x]) := by
  cases i with
  | dot =>
    obtain ⟨x, hsp, hx, rfl⟩ := h
    exact .inr ⟨rfl, x, hsp, hx, rfl⟩
  | halt | jmp =>
    obtain rfl : u = _ := h
    exact .inl rfl
  | add | sub | mpy =>
    obtain ⟨_, _, _, _, _, _, rfl⟩ := h
    exact .inl rfl
  | call | int =>
    obtain ⟨_, rfl⟩ := h
    exact .inl rfl
  | jzr =>
    obtain ⟨_, _, _, rfl⟩ := h
    exact .inl rfl
  | unlk | link | load | store =>
    obtain ⟨_, _, _, _, rfl⟩ := h
    exact .inl rfl
  | exit =>
    obtain ⟨_, _, rfl, _⟩ := h
    exact .inl rfl

/-- Settles O17: a fault ends in Faulted, and of the effects only that of `HALT`, whose cell is `0x0000`, halts. -/
theorem onlyTheHaltCellHalts : Obligations.OnlyTheHaltCellHalts := by
  intro s t h
  have hrun : s.run = .running := (step_cases h).1.1
  constructor
  · intro hhalted
    rcases step_faults_or_retires h with ⟨c, op, rfl⟩ | ⟨i, u, hf, hu, rfl⟩
    · simp at hhalted
    · rw [retire_run] at hhalted
      rcases effect_run hu with ⟨hsame, -⟩ | ⟨rfl, -⟩
      · simp [hsame, hrun] at hhalted
      · exact opcodeAtIp_of_fetch_ok hf
  · intro hcell
    have hexec : step s = exec .halt s := step_of_fetch_ok (step_cases h).1 (fetch_eq_halt_of_opcodeAtIp hcell)
    obtain rfl : retire .halt s (advance .halt s).halt = t := Host.Outcome.next.inj (hexec.symm.trans h)
    simp

/-- Settles O18: a fault keeps the output, and of the effects only that of `DOT` emits. -/
theorem onlyDotEmits : Obligations.OnlyDotEmits := by
  intro s t h hne
  rcases step_faults_or_retires h with ⟨c, op, rfl⟩ | ⟨i, u, hf, hu, rfl⟩
  · exact absurd rfl hne
  · rw [retire_output] at hne ⊢
    rcases effect_output hu with hsame | ⟨rfl, hemit⟩
    · exact absurd hsame hne
    · exact ⟨opcodeAtIp_of_fetch_ok hf, hemit⟩

end Sys2Proof.Machine

/-! Proofs about what changes stack memory and code memory (20_memory.md R41, R46 to R48; 70_reset_and_hazards.md R172,
R175). -/
namespace Sys2Proof.Machine

open Sys2Proof.Claims

variable {i : Instr} {s t u : State}

/-! Stack memory. -/

/-- A unary instruction fetched at `ip` has the signed value of the cell after `ip` as its immediate (30_encoding.md
R61). -/
theorem operandCell_of_fetch_ok {k : Int} (hf : fetch s = .ok i) (hk : i.operand = some k) :
    ∃ w, s.code[s.ip.toNat + 1]? = some w ∧ k = sint16 w := by
  obtain ⟨-, rest, hd⟩ := fetch_eq_ok.1 hf
  rcases decode_ok_cases hd with ⟨op, -, hn⟩ | ⟨op, w, mk, hcells, -, hu, rfl⟩
  · obtain ⟨-, hnone, -⟩ := nullaryOf_eq_some hn
    rw [hnone] at hk
    cases hk
  · obtain ⟨-, hsome⟩ := (unaryOf_eq_some hu).1 (sint16 w)
    have hcell : (s.code.drop s.ip.toNat)[1]? = some w := by rw [hcells]; rfl
    exact ⟨w, by rwa [List.getElem?_drop] at hcell, Option.some.inj (hk.symm.trans hsome)⟩

/-- A cell that reads otherwise after a write is the cell written. -/
theorem Memory.eq_of_read_write_ne {m : Memory} {n j : Nat} {v : Word16} (h : (m.write j v).read n ≠ m.read n) :
    n = j :=
  not_imp_comm.1 (Memory.read_write_ne m j n v) h

/-- The stack cell an instruction may write: by the push of its result after two pops, by its push, or by the indexed
write of `STORE`; the other instructions write none (20_memory.md R47, R48). -/
def WritesCell : Instr → State → Nat → Prop
  | .add, s, n | .sub, s, n | .mpy, s, n => n + 2 = s.sp
  | .call _, s, n | .int _, s, n | .link _, s, n | .load _, s, n => n = s.sp
  | .store k, s, n => (n : Int) = s.fp + k
  | .halt, _, _ | .dot, _, _ | .unlk, _, _ | .exit _, _, _ | .jmp _, _, _ | .jzr _, _, _ => False

/-- An instruction's effect changes no stack cell but the one the instruction may write. -/
theorem effect_writesCell {n : Nat} (h : Effect i s u) (hne : u.stack.read n ≠ s.stack.read n) : WritesCell i s n := by
  cases i with
  | halt | jmp =>
    obtain rfl : u = _ := h
    exact absurd rfl hne
  | dot | jzr =>
    obtain ⟨_, _, _, rfl⟩ := h
    exact absurd rfl hne
  | unlk =>
    obtain ⟨_, _, _, _, rfl⟩ := h
    exact absurd rfl hne
  | exit =>
    obtain ⟨_, _, rfl, _⟩ := h
    exact absurd rfl hne
  | add | sub | mpy =>
    obtain ⟨_, _, hsp, _, _, _, rfl⟩ := h
    have hn : n = s.sp - 2 := Memory.eq_of_read_write_ne hne
    simp only [WritesCell]
    omega
  | call | int =>
    obtain ⟨_, rfl⟩ := h
    exact Memory.eq_of_read_write_ne hne
  | link | load =>
    obtain ⟨_, _, _, _, rfl⟩ := h
    exact Memory.eq_of_read_write_ne hne
  | store k =>
    obtain ⟨_, _, _, hrange, rfl⟩ := h
    have hn : n = (s.fp + k).toNat := Memory.eq_of_read_write_ne hne
    simp only [WritesCell]
    omega

/-- Settles O20: a fault keeps stack memory, and an effect changes only the cell its instruction may write, where the
immediate of `STORE` is the operand cell. -/
theorem stackCellsChangeOnlyByPushAndStore : Obligations.StackCellsChangeOnlyByPushAndStore := by
  intro s t n h hne
  rcases step_faults_or_retires h with ⟨c, op, rfl⟩ | ⟨i, u, hf, hu, rfl⟩
  · exact absurd rfl hne
  · rw [retire_stack] at hne
    have hcell : WritesCell i s n := effect_writesCell hu hne
    have hop : OpcodeAtIp s i.opcode := opcodeAtIp_of_fetch_ok hf
    cases i with
    | add => exact .inl ⟨.inl hop, hcell⟩
    | mpy => exact .inl ⟨.inr (.inl hop), hcell⟩
    | sub => exact .inl ⟨.inr (.inr hop), hcell⟩
    | call => exact .inr (.inl ⟨.inl hop, hcell⟩)
    | int => exact .inr (.inl ⟨.inr (.inl hop), hcell⟩)
    | link => exact .inr (.inl ⟨.inr (.inr (.inl hop)), hcell⟩)
    | load => exact .inr (.inl ⟨.inr (.inr (.inr hop)), hcell⟩)
    | store =>
      obtain ⟨w, hw, rfl⟩ := operandCell_of_fetch_ok hf rfl
      exact .inr (.inr ⟨hop, w, hw, hcell⟩)
    | halt | dot | unlk | exit | jmp | jzr => exact hcell.elim

/-- Settles O45: inside stack memory the indexed write is `withCell`, which leaves every other field and cell. -/
theorem memWriteSetsExactlyOneCell : Obligations.MemWriteSetsExactlyOneCell := by
  intro s i v
  refine ⟨memWrite_outside, fun hin => ⟨s.withCell i.toNat v, memWrite_ok hin, ?_⟩⟩
  have hread : (s.withCell i.toNat v).stack.read i.toNat = some v := Memory.read_write_self ..
  have hothers : SameCellsBut i.toNat s (s.withCell i.toNat v) := fun j => Memory.read_write_ne _ _ j v
  exact ⟨hread, memRead_ok hin hread, hothers, rfl, rfl, rfl, rfl, rfl, rfl, rfl, rfl, rfl, rfl⟩

/-! Code memory and the host. -/

/-- No step writes code memory (20_memory.md R41). -/
theorem step_code (h : step s = .next t) : t.code = s.code := by
  rcases step_faults_or_retires h with ⟨c, op, rfl⟩ | ⟨i, u, -, hu, rfl⟩
  · rfl
  · obtain ⟨-, hcode, -⟩ := effect_same hu
    rw [retire_code, hcode]

theorem releaseReset_of_released (h : s.resetHeld = false) : releaseReset s = s := by
  cases s
  cases h
  rfl

theorem clearCode_of_released (h : s.resetHeld = false) : clearCode s = s := by
  simp [clearCode, h]

theorem loadCell_of_released (w : Word16) (h : s.resetHeld = false) : loadCell s w = s := by
  simp [loadCell, loadReply, h]

/-- A clear keeps code memory, or empties it under reset (70_reset_and_hazards.md R172). -/
theorem clearCode_code (s : State) :
    (clearCode s).code = s.code ∨ (s.resetHeld = true ∧ (clearCode s).code = []) := by
  cases hheld : s.resetHeld with
  | false => exact .inl (by rw [clearCode_of_released hheld])
  | true => exact .inr ⟨rfl, by simp [clearCode, hheld]⟩

/-- A load keeps code memory, or appends its cell under reset (70_reset_and_hazards.md R172). -/
theorem loadCell_code (s : State) (w : Word16) :
    (loadCell s w).code = s.code ∨ (s.resetHeld = true ∧ (loadCell s w).code = s.code ++ [w]) := by
  cases hheld : s.resetHeld with
  | false => exact .inl (by rw [loadCell_of_released w hheld])
  | true =>
    by_cases hfull : s.cfg.codeCap ≤ s.len
    · exact .inl (by simp [loadCell, loadReply, hheld, hfull])
    · exact .inr ⟨rfl, by simp [loadCell, loadReply, hheld, hfull]⟩

/-- With reset released, every action of the host but a step and asserting reset leaves the state as it is. -/
theorem hostAct_of_released {a : HostAction} (h : s.resetHeld = false) (hstep : a ≠ .step) (hassert : a ≠ .assertReset) :
    hostAct a s = .next s := by
  cases a with
  | step => exact absurd rfl hstep
  | assertReset => exact absurd rfl hassert
  | releaseReset => exact congrArg _ (releaseReset_of_released h)
  | clear => exact congrArg _ (clearCode_of_released h)
  | load w => exact congrArg _ (loadCell_of_released w h)
  | writeRegister => rfl

/-- Settles O50: released, the host's other actions change nothing; only a clear and a load, under reset, change code
memory. -/
theorem hostWritesOnlyUnderReset : Obligations.HostWritesOnlyUnderReset := by
  constructor
  · intro s t a hreleased h hstep hassert
    exact (Host.Outcome.next.inj ((hostAct_of_released hreleased hstep hassert).symm.trans h)).symm
  · intro s t a h hne
    cases a with
    | clear =>
      obtain rfl : clearCode s = t := Host.Outcome.next.inj h
      obtain ⟨hheld, hcode⟩ := (clearCode_code s).resolve_left hne
      exact ⟨hheld, .inl ⟨rfl, hcode⟩⟩
    | load w =>
      obtain rfl : loadCell s w = t := Host.Outcome.next.inj h
      obtain ⟨hheld, hcode⟩ := (loadCell_code s w).resolve_left hne
      exact ⟨hheld, .inr ⟨w, rfl, hcode⟩⟩
    | step => exact absurd (step_code h) hne
    | assertReset | releaseReset | writeRegister =>
      cases h
      exact absurd rfl hne

end Sys2Proof.Machine

/-! Proofs about the decoder against the encoding of single instructions (30_encoding.md R60 to R65). -/
namespace Sys2Proof.Machine

variable {i : Instr} {k : Int} {op : Word16} {mk : Int → Instr}

/-! Cells and immediates. -/

/-- The cell of a 16-bit integer reads back as that integer (00_scope.md R7). -/
theorem sint16_word16 (h : Fits16 k) : sint16 (word16 k) = k :=
  BitVec.toInt_ofInt_eq_self (by decide) h.1 (Int.lt_add_one_of_le h.2)

/-- The cell of a cell's signed value is that cell (00_scope.md R7). -/
theorem word16_sint16 (w : Word16) : word16 (sint16 w) = w := BitVec.ofInt_toInt

theorem wellFormed_of_operand_none (h : i.operand = none) : i.wellFormed = true := by
  simp [Instr.wellFormed, h]

theorem wellFormed_iff_fits16 (h : i.operand = some k) : i.wellFormed = true ↔ Fits16 k := by
  simp [Instr.wellFormed, h]

/-! The rows of the opcode map. -/

/-- The opcode of a nullary instruction selects its own row. -/
theorem nullaryOf_opcode (h : i.operand = none) : nullaryOf i.opcode = some i := by
  cases i with
  | halt | add | dot | mpy | sub | unlk => rfl
  | call | exit | int | jmp | jzr | link | load | store => cases h

/-- The opcode of a unary instruction selects its own row, which its immediate completes. -/
theorem unaryOf_opcode (h : i.operand = some k) : ∃ mk, unaryOf i.opcode = some mk ∧ mk k = i := by
  cases i with
  | halt | add | dot | mpy | sub | unlk => cases h
  | call | exit | int | jmp | jzr | link | load | store => cases h; exact ⟨_, rfl, rfl⟩

/-- No opcode stands in a nullary and in a unary row. -/
theorem nullaryOf_eq_none_of_unaryOf (h : unaryOf op = some mk) : nullaryOf op = none := by
  obtain ⟨-, hge, -⟩ := unaryOf_eq_some h
  exact nullaryOf_eq_none.2 (by omega)

/-- A nullary row decodes from its opcode cell alone. -/
theorem decode_of_nullaryOf (h : nullaryOf op = some i) (rest : List Word16) :
    decode (op :: rest) = .ok (i, rest) := by
  simp [decode, h]

/-- A unary row takes the signed value of the whole next cell. -/
theorem decode_of_unaryOf (h : unaryOf op = some mk) (w : Word16) (rest : List Word16) :
    decode (op :: w :: rest) = .ok (mk (sint16 w), rest) := by
  simp [decode, nullaryOf_eq_none_of_unaryOf h, h]

/-- A unary row does not decode without an operand cell. -/
theorem decode_singleton_of_unaryOf (h : unaryOf op = some mk) : decode [op] = .error (.noOperand op) := by
  simp [decode, nullaryOf_eq_none_of_unaryOf h, h]

/-- Settles O1: the opcode selects the instruction's row, and the operand cell reads back as its immediate. -/
theorem decodeOfEncodeIsTheInstruction : Obligations.DecodeOfEncodeIsTheInstruction := by
  intro i rest hwf
  cases hop : i.operand with
  | none =>
    rw [operand_eq_none_encode i hop]
    exact decode_of_nullaryOf (nullaryOf_opcode hop) rest
  | some k =>
    obtain ⟨mk, hrow, hmk⟩ := unaryOf_opcode hop
    have hk : sint16 (word16 k) = k := sint16_word16 ((wellFormed_iff_fits16 hop).1 hwf)
    have hdecode := decode_of_unaryOf hrow (word16 k) rest
    rw [hk, hmk] at hdecode
    rwa [operand_eq_some_encode i k hop]

/-- Settles O2: the row of the opcode cell fixes the opcode, and the immediate is the value of the operand cell. -/
theorem decodedCellsAreTheEncoding : Obligations.DecodedCellsAreTheEncoding := by
  intro cells rest i h
  rcases decode_ok_cases h with ⟨op, rfl, hn⟩ | ⟨op, w, mk, rfl, -, hu, rfl⟩
  · obtain ⟨rfl, hnone, -⟩ := nullaryOf_eq_some hn
    rw [operand_eq_none_encode i hnone]
    exact ⟨wellFormed_of_operand_none hnone, rfl⟩
  · obtain ⟨rfl, hsome⟩ := (unaryOf_eq_some hu).1 (sint16 w)
    rw [operand_eq_some_encode _ _ hsome, word16_sint16]
    exact ⟨(wellFormed_iff_fits16 hsome).2 (sint16_bounds w), rfl⟩

/-- Settles O4: the opcode's number says whether its row is nullary or unary, and so how many cells are read. -/
theorem opcodeAloneFixesTheLength : Obligations.OpcodeAloneFixesTheLength := by
  intro op
  constructor
  · intro hle
    have hrow : nullaryOf op ≠ none := fun hnone => absurd (nullaryOf_eq_none.1 hnone) (by omega)
    obtain ⟨i, hi⟩ := Option.ne_none_iff_exists'.1 hrow
    obtain ⟨-, hnone, -⟩ := nullaryOf_eq_some hi
    exact ⟨i, hnone, decode_of_nullaryOf hi⟩
  · intro hge hle
    have hrow : unaryOf op ≠ none := fun hnone => absurd (unaryOf_eq_none.1 hnone) (by omega)
    obtain ⟨mk, hmk⟩ := Option.ne_none_iff_exists'.1 hrow
    obtain ⟨hk, -⟩ := unaryOf_eq_some hmk
    exact ⟨decode_singleton_of_unaryOf hmk, mk, fun w rest => ⟨(hk (sint16 w)).2, decode_of_unaryOf hmk w rest⟩⟩

/-- Settles O5: each row of the map is read off `nullaryOf` or `unaryOf`, and the sample words are evaluated. -/
theorem sampleWordsOfTheMapDecode : Obligations.SampleWordsOfTheMapDecode := by
  refine ⟨fun rest => ?_, fun w rest => ?_, by decide, by decide, by decide, by decide, by decide⟩
  · exact ⟨decode_of_nullaryOf rfl rest, decode_of_nullaryOf rfl rest, decode_of_nullaryOf rfl rest,
      decode_of_nullaryOf rfl rest, decode_of_nullaryOf rfl rest, decode_of_nullaryOf rfl rest⟩
  · exact ⟨decode_of_unaryOf rfl w rest, decode_of_unaryOf rfl w rest, decode_of_unaryOf rfl w rest,
      decode_of_unaryOf rfl w rest, decode_of_unaryOf rfl w rest, decode_of_unaryOf rfl w rest,
      decode_of_unaryOf rfl w rest, decode_of_unaryOf rfl w rest⟩

end Sys2Proof.Machine

/-! Proofs about the encoder of source text: what a line reads as, and what the transcriber and the reference encoder
make of a source (30_encoding.md R71 to R77). -/
namespace Sys2Proof.Machine

variable {line : Line} {i : Instr} {mk : Int → Instr}

/-! One line. -/

theorem operand_of_nullary_mem_asmTable {mnemonic : Line} (h : (mnemonic, LineShape.nullary i) ∈ asmTable) :
    i.operand = none := by
  simp only [asmTable, List.mem_cons, Prod.mk.injEq, LineShape.nullary.injEq, reduceCtorEq, and_false, List.not_mem_nil,
    or_false] at h
  rcases h with ⟨-, rfl⟩ | ⟨-, rfl⟩ | ⟨-, rfl⟩ | ⟨-, rfl⟩ | ⟨-, rfl⟩ | ⟨-, rfl⟩ <;> rfl

theorem operand_of_unary_mem_asmTable {mnemonic : Line} (h : (mnemonic, LineShape.unary mk) ∈ asmTable) (n : Int) :
    (mk n).operand = some n := by
  simp only [asmTable, List.mem_cons, Prod.mk.injEq, LineShape.unary.injEq, reduceCtorEq, and_false, List.not_mem_nil,
    or_false, false_or] at h
  rcases h with ⟨-, rfl⟩ | ⟨-, rfl⟩ | ⟨-, rfl⟩ | ⟨-, rfl⟩ | ⟨-, rfl⟩ | ⟨-, rfl⟩ | ⟨-, rfl⟩ | ⟨-, rfl⟩ <;> rfl

theorem readLine_of_unrecognized (h : recognise asmTable line = none) :
    readLine line = .error (.unrecognizedInstruction line) := by
  simp [readLine, h]

theorem readLine_of_nullary {rest : Line} (h : recognise asmTable line = some (.nullary i, rest)) :
    readLine line = .ok i := by
  simp [readLine, h]

/-- A line that begins with a mnemonic reads as a well-formed instruction or has a malformed operand. -/
theorem readLine_of_recognized {found : LineShape × Line} (h : recognise asmTable line = some found) :
    (∃ i, readLine line = .ok i ∧ i.wellFormed = true) ∨ readLine line = .error (.malformedOperand line) := by
  obtain ⟨shape, rest⟩ := found
  obtain ⟨mnemonic, hmem, -⟩ := mem_of_recognise h
  cases shape with
  | nullary i =>
    exact .inl ⟨i, readLine_of_nullary h, wellFormed_of_operand_none (operand_of_nullary_mem_asmTable hmem)⟩
  | unary mk =>
    cases hn : readOperand rest with
    | none => exact .inr (by simp [readLine, h, hn])
    | some n =>
      by_cases hfits : Fits16 n
      · exact .inl ⟨mk n, by simp [readLine, h, hn, hfits],
          (wellFormed_iff_fits16 (operand_of_unary_mem_asmTable hmem n)).2 hfits⟩
      · exact .inr (by simp [readLine, h, hn, hfits])

/-- Every instruction read from a line has an immediate its operand cell can hold (30_encoding.md R73). -/
theorem wellFormed_of_readLine_ok (h : readLine line = .ok i) : i.wellFormed = true := by
  cases hrec : recognise asmTable line with
  | none => rw [readLine_of_unrecognized hrec] at h; cases h
  | some found =>
    rcases readLine_of_recognized hrec with ⟨j, hj, hwf⟩ | herr
    · rw [hj] at h; cases h; exact hwf
    · rw [herr] at h; cases h

/-- Settles O55: the mnemonic's entry of the table is found, and a nullary entry reads no further. -/
theorem nullaryLineIgnoresItsRest : Obligations.NullaryLineIgnoresItsRest := by
  intro mnemonic i rest h
  have hmem : (mnemonic, LineShape.nullary i) ∈ asmTable := by simpa [asmTable] using h
  exact readLine_of_nullary (recognise_append hmem rest)

/-! The transcriber. -/

variable {codeCap : Nat} {image : List Word16}

/-- The transcriber admits a first line exactly when it reads and its cells fit, and then goes on. -/
theorem transcribeFrom_cons_eq_ok {stream : List Word16} {lines : List Line} :
    transcribeFrom codeCap stream (line :: lines) = .ok image ↔ ∃ i, readLine line = .ok i ∧
      stream.length + i.size ≤ codeCap ∧ transcribeFrom codeCap (stream ++ encode i) lines = .ok image := by
  cases hread : readLine line with
  | error e => simp [transcribeFrom, hread]
  | ok i =>
    by_cases hfit : stream.length + i.size ≤ codeCap
    · simp [transcribeFrom_cons hread hfit, hfit]
    · simp [transcribeFrom, hread, hfit, Nat.not_le.1 hfit]

/-- From a stream that fits, the transcriber appends the encodings of the lines, which all read, and the whole image
fits. -/
theorem transcribeFrom_eq_ok {stream : List Word16} {source : List Line} (hs : stream.length ≤ codeCap) :
    transcribeFrom codeCap stream source = .ok image ↔
      ∃ is : List Instr, List.Forall₂ (fun line i => readLine line = .ok i) source is ∧
        image = stream ++ is.flatMap encode ∧ image.length ≤ codeCap := by
  induction source generalizing stream with
  | nil =>
    constructor
    · intro h
      cases h
      exact ⟨[], .nil, by simp, hs⟩
    · rintro ⟨_, ⟨⟩, rfl, -⟩
      simp [transcribeFrom]
  | cons line lines ih =>
    rw [transcribeFrom_cons_eq_ok]
    constructor
    · rintro ⟨i, hread, hfit, h⟩
      have hstream : (stream ++ encode i).length ≤ codeCap := by rwa [List.length_append, encode_length]
      obtain ⟨is, hlines, himage, hlen⟩ := (ih hstream).1 h
      exact ⟨i :: is, .cons hread hlines, by rw [himage, List.flatMap_cons, List.append_assoc], hlen⟩
    · rintro ⟨_, hall, himage, hlen⟩
      obtain ⟨i, is, hread, hlines, rfl⟩ := List.forall₂_cons_left_iff.1 hall
      rw [List.flatMap_cons, ← List.append_assoc] at himage
      have hstream : (stream ++ encode i).length ≤ codeCap := by
        rw [himage, List.length_append] at hlen
        omega
      exact ⟨i, hread, by rwa [List.length_append, encode_length] at hstream,
        (ih hstream).2 ⟨is, hlines, himage, hlen⟩⟩

/-- Settles O57: the transcriber starts from the empty stream, and what a line reads as is well formed. -/
theorem admittedSourceIsInstructions : Obligations.AdmittedSourceIsInstructions :=
  ⟨fun _ _ _ => transcribeFrom_eq_ok (Nat.zero_le _), fun _ _ => wellFormed_of_readLine_ok⟩

/-! The reference encoder. -/

variable {stream : List Word16} {reports : List AsmError} {lines : List Line}

theorem referenceLine_of_ok (h : readLine line = .ok i) :
    referenceLine stream reports line = .ok (stream ++ encode i, reports) := by
  simp [referenceLine, h]

theorem referenceLine_of_unrecognized (h : recognise asmTable line = none) :
    referenceLine stream reports line = .ok (stream, reports ++ [.unrecognizedInstruction line]) := by
  simp [referenceLine, readLine_of_unrecognized h]

theorem referenceFrom_cons_of_ok (h : readLine line = .ok i) :
    referenceFrom stream reports (line :: lines) = referenceFrom (stream ++ encode i) reports lines := by
  simp [referenceFrom, referenceLine_of_ok h]

theorem referenceFrom_cons_of_unrecognized (h : recognise asmTable line = none) :
    referenceFrom stream reports (line :: lines) =
      referenceFrom stream (reports ++ [.unrecognizedInstruction line]) lines := by
  simp [referenceFrom, referenceLine_of_unrecognized h]

/-- Settles O58: a line no mnemonic begins is reported and skipped, and `FOO 1` is such a line. -/
theorem unrecognizedLineIsReportedAndSkipped : Obligations.UnrecognizedLineIsReportedAndSkipped :=
  ⟨fun _ h => ⟨readLine_of_unrecognized h, fun _ _ => referenceLine_of_unrecognized h,
    fun _ _ _ => referenceFrom_cons_of_unrecognized h⟩, fun _ _ => referenceLine_of_unrecognized rfl⟩

/-- From a stream and reports already begun, the reference encoder appends the encodings of the lines that read and the
reports of the lines that begin with no mnemonic. -/
theorem referenceFrom_eq_ok {source : List Line}
    (h : ∀ line ∈ source, ∀ text, readLine line ≠ .error (.malformedOperand text)) :
    referenceFrom stream reports source = .ok
      (stream ++ (source.filterMap fun line => (readLine line).toOption).flatMap encode,
        reports ++ (source.filter fun line => (recognise asmTable line).isNone).map .unrecognizedInstruction) := by
  induction source generalizing stream reports with
  | nil => simp [referenceFrom]
  | cons line lines ih =>
    obtain ⟨hline, hlines⟩ := List.forall_mem_cons.1 h
    cases hrec : recognise asmTable line with
    | none =>
      rw [referenceFrom_cons_of_unrecognized hrec, ih hlines]
      simp [hrec, readLine_of_unrecognized hrec, Except.toOption]
    | some found =>
      rcases readLine_of_recognized hrec with ⟨i, hi, -⟩ | herr
      · rw [referenceFrom_cons_of_ok hi, ih hlines]
        simp [hrec, hi, Except.toOption]
      · exact absurd herr (hline line)

/-- Settles O60: the reference encoder starts from the empty image and no reports. -/
theorem referenceEncoderSkipsOnlyBadLines : Obligations.ReferenceEncoderSkipsOnlyBadLines :=
  fun _ h => referenceFrom_eq_ok h

end Sys2Proof.Machine

/-! Proofs about the cycle: when a step is enabled, what it fetches, and whether it retires or faults (40_cycle.md R80 to
R87). -/
namespace Sys2Proof.Machine

open Sys2Proof.Claims

variable {i : Instr} {s t u : State} {op : Word16}

/-! Fetch. -/

/-- The cells from `ip` on begin with the opcode cell at `ip` (40_cycle.md R81). -/
theorem drop_ip_of_opcodeAtIp (h : OpcodeAtIp s op) :
    s.code.drop s.ip.toNat = op :: s.code.drop (s.ip.toNat + 1) := by
  obtain ⟨hlt, hget⟩ := List.getElem?_eq_some_iff.1 h.2
  rw [List.drop_eq_getElem_cons hlt, hget]

theorem ip_lt_len_of_opcodeAtIp (h : OpcodeAtIp s op) : s.ip < s.len := by
  obtain ⟨hip, hcell⟩ := h
  obtain ⟨hlt, -⟩ := List.getElem?_eq_some_iff.1 hcell
  simp only [State.len]
  omega

/-- Cells at `ip` that decode begin with the instruction's opcode cell. -/
theorem opcodeAtIp_of_decode_ok {rest : List Word16} (hip : 0 ≤ s.ip)
    (hd : decode (s.code.drop s.ip.toNat) = .ok (i, rest)) : OpcodeAtIp s i.opcode :=
  ⟨hip, List.head?_drop.symm.trans (decode_ok_opcode hd)⟩

/-- Settles O8: cells that decode lie in the image, so the fetch answers the instruction. -/
theorem stepRunsTheDecodedInstruction : Obligations.StepRunsTheDecodedInstruction := by
  intro s i rest he hip hd
  have hlen : s.ip < s.len := ip_lt_len_of_opcodeAtIp (opcodeAtIp_of_decode_ok hip hd)
  exact step_of_fetch_ok he (fetch_eq_ok.2 ⟨⟨hip, hlen⟩, rest, hd⟩)

/-- An opcode value in no row of the map does not decode, whatever cells follow (30_encoding.md R65). -/
theorem decode_of_unrecognized (h : op.toNat = 6 ∨ 15 ≤ op.toNat) (rest : List Word16) :
    decode (op :: rest) = .error (.unrecognizedOpcode op) := by
  have hnullary : nullaryOf op = none := nullaryOf_eq_none.2 (by omega)
  have hunary : unaryOf op = none := unaryOf_eq_none.2 (by omega)
  simp [decode, hnullary, hunary]

/-- Settles O10: the fetch finds the cell in the image, and no row of the map decodes it. -/
theorem unrecognizedOpcodeFaults : Obligations.UnrecognizedOpcodeFaults := by
  intro s op he hcell hop
  have hrange : ¬ (s.ip < 0 ∨ (s.len : Int) ≤ s.ip) := by
    have hlen := ip_lt_len_of_opcodeAtIp hcell
    have hip := hcell.1
    omega
  have hfetch : fetch s = .error (.unrecognizedOpcode, some op) := by
    simp [fetch, hrange, drop_ip_of_opcodeAtIp hcell, decode_of_unrecognized hop]
  exact step_of_fetch_error he hfetch

/-! Retirement and faults. -/

/-- Every instruction answers a next state in every state. -/
theorem exec_answers (i : Instr) (s : State) : ∃ t, exec i s = .next t := by
  obtain ⟨body, hexec, -⟩ := exec_finish i s
  cases body with
  | ok u => exact ⟨_, hexec⟩
  | error c => exact ⟨_, hexec⟩

/-- Every enabled step answers a next state (40_cycle.md R80). -/
theorem step_answers (he : s.Enabled) : ∃ t, step s = .next t := by
  cases hf : fetch s with
  | error e => exact ⟨_, step_of_fetch_error he hf⟩
  | ok i => exact step_of_fetch_ok he hf ▸ exec_answers i s

/-- No effect ends in Faulted: a fault discards the working copy (40_cycle.md R85). -/
theorem effect_run_ne_faulted (hrun : s.run = .running) (h : Effect i s u) : u.run ≠ .faulted := by
  rcases effect_run h with ⟨hsame, -⟩ | ⟨-, hhalted⟩
  · simp [hsame, hrun]
  · simp [hhalted]

/-- The fault of a failed fetch is precise: a cause, and the opcode at `ip` unless no opcode was fetched. -/
theorem fetch_error_precise {c : Cause} {op : Option Word16} (h : fetch s = .error (c, op)) :
    c ≠ .noFault ∧ (op = none ↔ c = .fetchOutOfRange) ∧ ∀ o, op = some o → OpcodeAtIp s o := by
  rcases fetch_error_cases h with ⟨rfl, rfl, -⟩ | ⟨o, rfl, hip, hcell, rfl | rfl⟩
  · simp
  · simpa using ⟨hip, hcell⟩
  · simpa using ⟨hip, hcell⟩

/-- Settles O14: a failed fetch faults, and a fetched instruction retires with its effect or faults with a cause of its
own. -/
theorem enabledStepRetiresOrFaultsPrecisely : Obligations.EnabledStepRetiresOrFaultsPrecisely := by
  intro s he
  obtain ⟨t, ht⟩ := step_answers he
  refine ⟨t, ht, ?_⟩
  obtain ⟨-, ⟨c, op, hf, rfl⟩ | ⟨i, hf, hexec⟩⟩ := step_cases ht
  · exact .inr ⟨c, op, rfl, fetch_error_precise hf⟩
  · rcases exec_cases hexec with ⟨u, hu, rfl⟩ | ⟨c, hcause, hfetched, rfl⟩
    · obtain ⟨hrecord, -⟩ := effect_same hu
      rw [retire_run, retire_record]
      exact .inl ⟨effect_run_ne_faulted he.1 hu, hrecord⟩
    · refine .inr ⟨c, some i.opcode, rfl, hcause, by simp [hfetched], fun o ho => ?_⟩
      obtain rfl : i.opcode = o := Option.some.inj ho
      exact opcodeAtIp_of_fetch_ok hf

/-- Settles O22: a fault keeps the trace, and a retirement appends the record of the fetched instruction. -/
theorem traceRecordsExactlyTheRetired : Obligations.TraceRecordsExactlyTheRetired := by
  intro s t h htrace
  have hrun : s.run = .running := (step_cases h).1.1
  rcases step_faults_or_retires h with ⟨c, op, rfl⟩ | ⟨i, u, hf, hu, rfl⟩
  · exact ⟨fun _ => rfl, fun hne => absurd rfl hne⟩
  · obtain ⟨-, rest, hd⟩ := fetch_eq_ok.1 hf
    refine ⟨fun hfaulted => ?_, fun _ => ⟨i, rest, hd, opcodeAtIp_of_fetch_ok hf, ?_⟩⟩
    · exact absurd ((retire_run ..).symm.trans hfaulted) (effect_run_ne_faulted hrun hu)
    · simp [retire_trace, htrace, traceRecord, stackView]

/-! Terminal states. -/

@[simp] theorem clearCode_run (s : State) : (clearCode s).run = s.run := by
  unfold clearCode
  split <;> rfl

@[simp] theorem loadCell_run (s : State) (w : Word16) : (loadCell s w).run = s.run := by
  unfold loadCell
  split <;> rfl

/-- No step is enabled in a state that is not Running (40_cycle.md R87). -/
theorem step_ne_next_of_not_running (h : s.run ≠ .running) (t : State) : step s ≠ .next t :=
  fun ht => h (step_cases ht).1.1

/-- Settles O12: a step needs Running, and of the host's other actions only asserting reset writes the run state. -/
theorem terminalStatesLeftOnlyByReset : Obligations.TerminalStatesLeftOnlyByReset := by
  intro s hterminal
  have hrun : s.run ≠ .running := by
    rcases hterminal with h | h <;> simp [h]
  refine ⟨step_ne_next_of_not_running hrun, fun a t h hassert => ?_⟩
  cases a with
  | assertReset => exact absurd rfl hassert
  | step => exact absurd h (step_ne_next_of_not_running hrun t)
  | releaseReset | writeRegister =>
    cases h
    rfl
  | clear =>
    obtain rfl : clearCode s = t := Host.Outcome.next.inj h
    exact clearCode_run s
  | load w =>
    obtain rfl : loadCell s w = t := Host.Outcome.next.inj h
    exact loadCell_run s w

end Sys2Proof.Machine

/-! Proofs about `HALT` (41_halt.md R90), and what the retirement of every instruction leaves (40_cycle.md R86). -/
namespace Sys2Proof.Machine

open Sys2Proof.Claims

variable {i : Instr} {s u : State}

/-- Retiring an instruction's effect keeps the fields that no effect changes, and appends its record when tracing. -/
theorem retired_retire_of_effect (h : Effect i s u) : Retired i s (retire i s u) := by
  obtain ⟨hrecord, hcode, hcfg, hreset, htrace⟩ := effect_same h
  refine ⟨by simpa, by simpa, by simpa, by simpa, ?_⟩
  rw [retire_trace, retire_sp, retire_stack, htrace]
  split
  · rfl
  · exact (List.append_nil _).symm

/-- Settles O24: `HALT` retires the advanced state with the run state Halted, where no step is enabled. -/
theorem haltStopsTheRun : Obligations.HaltStopsTheRun := by
  refine ⟨rfl, fun s => ⟨retire .halt s (advance .halt s).halt, rfl, ?_⟩⟩
  have heffect : Effect .halt s (advance .halt s).halt := rfl
  have hcells : SameCells s (retire .halt s (advance .halt s).halt) := fun j => by simp
  have hstopped : (retire .halt s (advance .halt s).halt).run ≠ .running := by simp
  exact ⟨retire_run .., retire_ip .., retire_sp .., retire_fp .., hcells, retire_output ..,
    retired_retire_of_effect heffect, step_ne_next_of_not_running hstopped⟩

end Sys2Proof.Machine

/-! Proofs about `ADD`, `SUB` and `MPY` (42_arithmetic.md R100 to R103): the bits of a wrapped result, and what a
completed instruction leaves. -/
namespace Sys2Proof.Machine

open Sys2Proof.Claims

variable {i : Instr} {s : State} {lhs rhs : Word16} {f : Int → Int → Int}

/-! Wrapped results as bits. -/

theorem wrap16_fits16 (v : Int) : Fits16 (wrap16 v) := by
  unfold Fits16 wrap16
  omega

theorem wrap16_residue (v : Int) : (wrap16 v - v) % 65536 = 0 := by
  unfold wrap16
  omega

/-- A cell keeps only the residue modulo 65536, so wrapping first changes no bit (42_arithmetic.md R103). -/
theorem word16_wrap16 (v : Int) : word16 (wrap16 v) = word16 v := by
  have hresidue : wrap16 v % 65536 = v % 65536 := Int.emod_eq_emod_iff_emod_sub_eq_zero.2 (wrap16_residue v)
  exact word16_ext (by rw [word16_toNat, word16_toNat, hresidue])

theorem word16_add (v w : Int) : word16 (v + w) = word16 v + word16 w := BitVec.ofInt_add v w

theorem word16_sub (v w : Int) : word16 (v - w) = word16 v - word16 w := by
  rw [Int.sub_eq_add_neg, word16_add, BitVec.sub_eq_add_neg]
  exact congrArg (word16 v + ·) BitVec.ofInt_neg

theorem word16_mul (v w : Int) : word16 (v * w) = word16 v * word16 w := BitVec.ofInt_mul v w

/-- Settles O7: signed or unsigned, the cell of the wrapped result is the operation on the two cells as bit vectors. -/
theorem wrappedBitsIgnoreSignedness : Obligations.WrappedBitsIgnoreSignedness := by
  refine ⟨fun v => ⟨wrap16_fits16 v, wrap16_residue v⟩, fun a b => ⟨?sum, ?difference, ?product⟩⟩
  case sum =>
    rw [word16_wrap16, word16_add, word16_sint16, word16_sint16, BitVec.add_def]
  case difference =>
    have hcomm : a.toNat + 65536 - b.toNat = 2 ^ 16 - b.toNat + a.toNat := by
      have hb := b.isLt
      omega
    rw [word16_wrap16, word16_sub, word16_sint16, word16_sint16, BitVec.sub_def, hcomm]
  case product =>
    rw [word16_wrap16, word16_mul, word16_sint16, word16_sint16]
    simp [BitVec.ofNat_mul]

/-! What a completed instruction leaves. -/

/-- With both operands readable and `sp` within the capacity, the shared body answers: the wrapped result replaces the
second cell from the top, and `sp` is one lower (42_arithmetic.md R100). -/
theorem binary_ok (hsp : 2 ≤ s.sp) (hcap : s.sp ≤ s.cfg.stackCap) (hr : s.stack.read (s.sp - 1) = some rhs)
    (hl : s.stack.read (s.sp - 2) = some lhs) :
    binary f s = .ok ((s.withSp (s.sp - 1)).withCell (s.sp - 2) (word16 (wrap16 (f (sint16 lhs) (sint16 rhs))))) := by
  have hfirst : pop s = .ok (rhs, s.withSp (s.sp - 1)) := pop_ok (by omega) hr
  have hsecond : pop (s.withSp (s.sp - 1)) = .ok (lhs, s.withSp (s.sp - 2)) := pop_ok (Nat.sub_pos_of_lt hsp) hl
  have hpush (w : Word16) :
      push (s.withSp (s.sp - 2)) w = .ok ((s.withSp (s.sp - 1)).withCell (s.sp - 2) w) := by
    have hroom : s.sp - 2 < s.cfg.stackCap := by omega
    have htop : s.sp - 2 + 1 = s.sp - 1 := by omega
    rw [push_ok hroom, withSp_sp, htop]
    rfl
  simp [binary, hfirst, hsecond, hpush]

/-- An instruction of one cell that runs the shared body of `f` leaves the arithmetic result of `f`. -/
theorem arithmeticResult_of_binary (hexec : ∀ s, exec i s = finish i s (binary f (advance i s))) (hsize : i.size = 1)
    (heffect : ∀ s u, ArithmeticEffect f s u → Effect i s u) : ArithmeticResult i f := by
  intro s lhs rhs hsp hcap hr hl
  have hbody := binary_ok (s := advance i s) (f := f) hsp hcap hr hl
  have hretired := retired_retire_of_effect (heffect s _ (binary_effect hsize hbody))
  refine ⟨_, (hexec s).trans (congrArg (finish i s) hbody), ?ip, retire_sp .., retire_fp .., ?result,
    fun j hj => ?cells, hretired, retire_run .., retire_output ..⟩
  case ip => simp [hsize]
  case result => simp
  case cells => simp [hj]

/-- Settles O25: each of the three instructions runs the shared body on its own operation. -/
theorem arithmeticPushesTheWrappedResult : Obligations.ArithmeticPushesTheWrappedResult :=
  ⟨arithmeticResult_of_binary (fun _ => rfl) rfl fun _ _ h => h,
    arithmeticResult_of_binary (fun _ => rfl) rfl fun _ _ h => h,
    arithmeticResult_of_binary (fun _ => rfl) rfl fun _ _ h => h⟩

end Sys2Proof.Machine

/-! Proofs about `DOT` and `INT` (43_stack_output.md R110, R111), and the missing operand of every unary opcode
(40_cycle.md R83). -/
namespace Sys2Proof.Machine

open Sys2Proof.Claims

variable {i : Instr} {s t : State} {op x : Word16} {c : Cause}

/-! The missing operand. -/

/-- A unary opcode in the last cell of the image has no operand cell to fetch (40_cycle.md R83). -/
theorem fetch_of_unaryOf_at_end {mk : Int → Instr} (hrow : unaryOf op = some mk) (hcell : OpcodeAtIp s op)
    (hend : s.ip + 1 = s.len) : fetch s = .error (.operandOutOfRange, some op) := by
  have hrange : ¬ (s.ip < 0 ∨ (s.len : Int) ≤ s.ip) := by
    have hip := hcell.1
    omega
  have hlast : s.code.drop (s.ip.toNat + 1) = [] := by
    simp only [State.len] at hend
    exact List.drop_eq_nil_of_le (by omega)
  have hdecode : decode (s.code.drop s.ip.toNat) = .error (.noOperand op) := by
    rw [drop_ip_of_opcodeAtIp hcell, hlast, decode_singleton_of_unaryOf hrow]
  simp [fetch, hrange, hdecode]

theorem missingOperandFaults_of_unaryOf {mk : Int → Instr} (hrow : unaryOf op = some mk) : MissingOperandFaults op :=
  fun _ he hcell hend => step_of_fetch_error he (fetch_of_unaryOf_at_end hrow hcell hend)

/-! `DOT`. -/

/-- With a readable top cell `DOT` retires the state after the pop and the emission. -/
theorem exec_dot_of_top (hsp : 0 < s.sp) (hx : s.stack.read (s.sp - 1) = some x) :
    exec .dot s = .next (retire .dot s (((advance .dot s).withSp (s.sp - 1)).emit (sint16 x))) := by
  have hpop : pop (advance .dot s) = .ok (x, (advance .dot s).withSp (s.sp - 1)) := pop_ok hsp hx
  simp [exec, execDot, hpop]

/-- Where its pop fails, `DOT` takes the pop's fault. -/
theorem exec_dot_of_pop_error (hpop : pop (advance .dot s) = .error c) :
    exec .dot s = .next (faultedAt s c (some 0x0002)) := by
  simp only [exec, execDot, hpop, error_bind, finish_error]
  rfl

/-- An instruction other than `DOT` leaves the output alone, whether it retires or faults (43_stack_output.md R110). -/
theorem exec_output_of_ne_dot (hne : i ≠ .dot) (h : exec i s = .next t) : t.output = s.output := by
  rcases exec_cases h with ⟨u, hu, rfl⟩ | ⟨c, -, -, rfl⟩
  · rw [retire_output]
    exact (effect_output hu).resolve_right fun hdot => hne hdot.1
  · rfl

/-- Settles O27: `DOT` ends as its pop does, and of the effects only its own emits. -/
theorem dotEmitsTheTop : Obligations.DotEmitsTheTop := by
  refine ⟨rfl, fun s => ⟨fun x hsp hx => ?completes, fun hempty => ?empty, fun hsp hnone => ?unwritten,
    fun i t => exec_output_of_ne_dot⟩⟩
  case completes =>
    have hcells : SameCells s (retire .dot s (((advance .dot s).withSp (s.sp - 1)).emit (sint16 x))) :=
      fun j => by simp
    exact ⟨_, exec_dot_of_top hsp hx, retire_output .., retire_sp .., retire_ip .., retire_fp .., retire_run ..,
      hcells, retired_retire_of_effect ⟨x, hsp, hx, rfl⟩⟩
  case empty => exact exec_dot_of_pop_error (pop_empty hempty)
  case unwritten => exact exec_dot_of_pop_error (pop_unwritten hsp hnone)

/-! `INT`. -/

/-- With room on the stack `INT k` retires the state after the push of its literal. -/
theorem exec_int_of_room (k : Int) (h : s.sp < s.cfg.stackCap) : exec (.int k) s =
    .next (retire (.int k) s (((advance (.int k) s).withCell s.sp (word16 k)).withSp (s.sp + 1))) := by
  have hpush : push (advance (.int k) s) (word16 k) =
      .ok (((advance (.int k) s).withCell s.sp (word16 k)).withSp (s.sp + 1)) := push_ok h
  simp only [exec, execInt, hpush, finish_ok]

theorem exec_int_of_full (k : Int) (h : s.cfg.stackCap ≤ s.sp) :
    exec (.int k) s = .next (faultedAt s .stackOverflow (some 0x0009)) := by
  have hpush : push (advance (.int k) s) (word16 k) = .error .stackOverflow := push_full h
  simp only [exec, execInt, hpush, finish_error]
  rfl

/-- Settles O28: the operand fetch comes first, and then `INT` ends as its push does. -/
theorem intPushesTheLiteral : Obligations.IntPushesTheLiteral := by
  refine ⟨missingOperandFaults_of_unaryOf rfl, fun k hk => ⟨rfl, sint16_word16 hk, fun s =>
    ⟨fun hroom => ⟨_, exec_int_of_room k hroom, retire_sp .., ?pushed, retire_ip .., retire_fp .., fun j hj => ?cells,
      retired_retire_of_effect ⟨hroom, rfl⟩, retire_run .., retire_output ..⟩, exec_int_of_full k⟩⟩⟩
  case pushed => simp
  case cells => simp [hj]

end Sys2Proof.Machine

/-! Proofs about `LOAD` and `STORE` (44_frame.md R120, R121): each ends as its accesses to stack memory do. -/
namespace Sys2Proof.Machine

open Sys2Proof.Claims

variable {s t : State} {v x : Word16} {k : Int} {c : Cause}

/-! `LOAD`. -/

/-- With a written cell at `fp + k` and room on the stack, `LOAD k` retires the state after the push of that cell. -/
theorem exec_load_of_cell (hin : InStack s (s.fp + k)) (hv : s.stack.read (s.fp + k).toNat = some v)
    (hroom : s.sp < s.cfg.stackCap) : exec (.load k) s =
      .next (retire (.load k) s (((advance (.load k) s).withCell s.sp v).withSp (s.sp + 1))) := by
  have hread : memRead (advance (.load k) s) (frameIndex (advance (.load k) s) k) = .ok v := memRead_ok hin hv
  have hpush : push (advance (.load k) s) v = .ok (((advance (.load k) s).withCell s.sp v).withSp (s.sp + 1)) :=
    push_ok hroom
  simp only [exec, execLoad, hread, ok_bind, hpush, finish_ok]

/-- Where its read of the frame cell fails, `LOAD k` takes the read's fault and looks at nothing else. -/
theorem exec_load_of_read_error (hread : memRead (advance (.load k) s) (s.fp + k) = .error c) :
    exec (.load k) s = .next (faultedAt s c (some 0x000D)) := by
  simp only [exec, execLoad, frameIndex, advance_fp, hread, error_bind, finish_error]
  rfl

/-- A full stack is noticed only after the frame cell was read (44_frame.md R120). -/
theorem exec_load_of_full (hin : InStack s (s.fp + k)) (hv : s.stack.read (s.fp + k).toNat = some v)
    (hfull : s.cfg.stackCap ≤ s.sp) : exec (.load k) s = .next (faultedAt s .stackOverflow (some 0x000D)) := by
  have hread : memRead (advance (.load k) s) (frameIndex (advance (.load k) s) k) = .ok v := memRead_ok hin hv
  have hpush : push (advance (.load k) s) v = .error .stackOverflow := push_full hfull
  simp only [exec, execLoad, hread, ok_bind, hpush, finish_error]
  rfl

/-- Settles O29: the operand fetch comes first, then the read of the frame cell, then the push. -/
theorem loadPushesTheFrameCell : Obligations.LoadPushesTheFrameCell := by
  refine ⟨missingOperandFaults_of_unaryOf rfl, fun k _ => ⟨rfl, fun s =>
    ⟨fun v hin hv hroom => ?completes, fun hout => ?outside, fun hin hnone => ?unwritten, fun v => exec_load_of_full⟩⟩⟩
  case completes =>
    refine ⟨_, exec_load_of_cell hin hv hroom, retire_sp .., ?pushed, retire_ip .., retire_fp .., fun j hj => ?cells,
      retired_retire_of_effect ⟨v, hin, hv, hroom, rfl⟩, retire_run .., retire_output ..⟩
    case pushed => simp
    case cells => simp [hj]
  case outside => exact exec_load_of_read_error (memRead_outside hout)
  case unwritten => exact exec_load_of_read_error (memRead_unwritten hin hnone)

/-! `STORE`. -/

/-- With a readable top cell and `fp + k` in stack memory, `STORE k` retires the state after the pop and the write. -/
theorem exec_store_of_top (hsp : 0 < s.sp) (hx : s.stack.read (s.sp - 1) = some x) (hin : InStack s (s.fp + k)) :
    exec (.store k) s =
      .next (retire (.store k) s (((advance (.store k) s).withSp (s.sp - 1)).withCell (s.fp + k).toNat x)) := by
  have hpop : pop (advance (.store k) s) = .ok (x, (advance (.store k) s).withSp (s.sp - 1)) := pop_ok hsp hx
  have hwrite : memWrite ((advance (.store k) s).withSp (s.sp - 1)) (s.fp + k) x =
      .ok (((advance (.store k) s).withSp (s.sp - 1)).withCell (s.fp + k).toNat x) := memWrite_ok hin
  simp only [exec, execStore, hpop, ok_bind, frameIndex, withSp_fp, advance_fp, hwrite, finish_ok]

/-- Where its pop fails, `STORE k` takes the pop's fault, whatever the index. -/
theorem exec_store_of_pop_error (hpop : pop (advance (.store k) s) = .error c) :
    exec (.store k) s = .next (faultedAt s c (some 0x000E)) := by
  simp only [exec, execStore, hpop, error_bind, finish_error]
  rfl

/-- The index is checked only after the pop (44_frame.md R121). -/
theorem exec_store_outside (hsp : 0 < s.sp) (hx : s.stack.read (s.sp - 1) = some x) (hout : ¬ InStack s (s.fp + k)) :
    exec (.store k) s = .next (faultedAt s .indexOutOfRange (some 0x000E)) := by
  have hpop : pop (advance (.store k) s) = .ok (x, (advance (.store k) s).withSp (s.sp - 1)) := pop_ok hsp hx
  have hwrite : memWrite ((advance (.store k) s).withSp (s.sp - 1)) (s.fp + k) x = .error .indexOutOfRange :=
    memWrite_outside hout
  simp only [exec, execStore, hpop, ok_bind, frameIndex, withSp_fp, advance_fp, hwrite, finish_error]
  rfl

/-- Settles O30: the operand fetch comes first, then the pop, then the write of the frame cell. -/
theorem storeWritesTheFrameCell : Obligations.StoreWritesTheFrameCell := by
  refine ⟨missingOperandFaults_of_unaryOf rfl, fun k _ => ⟨rfl, fun s =>
    ⟨fun x hsp hx hin => ?completes, fun hempty => ?empty, fun hsp hnone => ?unwritten, fun x => exec_store_outside⟩⟩⟩
  case completes =>
    refine ⟨_, exec_store_of_top hsp hx hin, retire_sp .., ?written, retire_ip .., retire_fp .., fun j hj => ?cells,
      retired_retire_of_effect ⟨x, hsp, hx, hin, rfl⟩, retire_run .., retire_output ..⟩
    case written => simp
    case cells => simp [hj]
  case empty => exact exec_store_of_pop_error (pop_empty hempty)
  case unwritten => exact exec_store_of_pop_error (pop_unwritten hsp hnone)

end Sys2Proof.Machine

/-! Proofs about the frame that `CALL`, `LINK` and `UNLK` build and take down (44_frame.md R125). -/
namespace Sys2Proof.Machine

open Sys2Proof.Claims

variable {i : Instr} {s t u : State} {v : Word16} {k tgt : Int}

/-- An instruction that ends outside Faulted retired with its effect (40_cycle.md R85, R86). -/
theorem effect_of_exec_not_faulted (h : exec i s = .next t) (hrun : t.run ≠ .faulted) :
    ∃ u, Effect i s u ∧ t = retire i s u := by
  rcases exec_cases h with hretired | ⟨c, -, -, rfl⟩
  · exact hretired
  · exact absurd rfl hrun

/-- What a `LINK` that retires leaves of the frame: the old `fp` in the cell at the old `sp`, and the new `fp` there
(44_frame.md R122, 90_conflicts.md C1). -/
theorem link_opens_frame (h : exec (.link k) s = .next t) (hrun : t.run ≠ .faulted) :
    s.sp < s.cfg.stackCap ∧ t.fp = s.sp ∧ t.stack = s.stack.write s.sp (word16 s.fp) ∧ t.cfg = s.cfg := by
  obtain ⟨u, ⟨n, -, -, hroom, rfl⟩, rfl⟩ := effect_of_exec_not_faulted h hrun
  exact ⟨hroom, retire_fp .., retire_stack .., retire_cfg ..⟩

/-- What a `CALL` that retires leaves of the stack: the return address in the cell at the old `sp`, on top, under the
caller's `fp` (45_control.md R130, 90_conflicts.md C3). -/
theorem call_pushes_return (h : exec (.call tgt) s = .next t) (hrun : t.run ≠ .faulted) :
    t.sp = s.sp + 1 ∧ t.fp = s.fp ∧ t.stack = s.stack.write s.sp (word16 (s.ip + 2)) := by
  obtain ⟨u, ⟨-, rfl⟩, rfl⟩ := effect_of_exec_not_faulted h hrun
  exact ⟨retire_sp .., retire_fp .., retire_stack ..⟩

/-- With a written saved-fp cell in stack memory, `UNLK` retires the state with `sp` at that cell and `fp` read from it
(44_frame.md R123). -/
theorem exec_unlk_of_saved (hin : InStack s s.fp) (hv : s.stack.read s.fp.toNat = some v) : exec .unlk s =
    .next (retire .unlk s (((advance .unlk s).withSp s.fp.toNat).withFp (sint16 v))) := by
  have htop : (s.fp + 1).toNat - 1 = s.fp.toNat := by omega
  have hmove : moveSp (advance .unlk s) (s.fp + 1) = .ok ((advance .unlk s).withSp (s.fp + 1).toNat) :=
    moveSp_ok (by simp only [advance_cfg]; omega)
  have hread : s.stack.read ((s.fp + 1).toNat - 1) = some v := by rwa [htop]
  have hpop : pop ((advance .unlk s).withSp (s.fp + 1).toNat) = .ok (v, (advance .unlk s).withSp s.fp.toNat) := by
    rw [← htop]
    exact pop_ok (by rw [withSp_sp]; omega) hread
  simp only [exec, execUnlk, hmove, ok_bind, hpop, pure_eq_ok, finish_ok]

/-- Settles O35: `LINK` saves `fp` in the cell at the old `sp`, where `UNLK` finds both. -/
theorem linkThenUnlkRestoresFrame : Obligations.LinkThenUnlkRestoresFrame := by
  intro k s t hfits _ hlink hrun
  obtain ⟨hroom, hfp, hstack, hcfg⟩ := link_opens_frame hlink hrun
  refine ⟨⟨hfp, by rw [hstack, Memory.read_write_self], hcfg⟩, fun u hucfg hufp hsaved => ?_⟩
  have hin : InStack u u.fp := by rw [InStack, hufp, hucfg]; omega
  have hcell : u.stack.read u.fp.toNat = some (word16 s.fp) := by rwa [hufp, Int.toNat_natCast]
  refine ⟨_, exec_unlk_of_saved hin hcell, retire_run .., ?fp, ?sp, fun j => ?cells⟩
  case fp => rw [retire_fp, withFp_fp, sint16_word16 hfits]
  case sp => rw [retire_sp, withFp_sp, withSp_sp, hufp, Int.toNat_natCast]
  case cells => simp

/-- Settles O41: `CALL` writes the cell at `sp` and `LINK` the one above it, and the cells below stay the caller's. -/
theorem callThenLinkLaysOutTheFrame : Obligations.CallThenLinkLaysOutTheFrame := by
  intro tgt m s t u _ hcall htrun hlink hurun
  obtain ⟨htsp, htfp, htstack⟩ := call_pushes_return hcall htrun
  obtain ⟨-, hfp, hstack, -⟩ := link_opens_frame hlink hurun
  rw [htsp, Nat.cast_succ] at hfp
  rw [htsp, htfp, htstack] at hstack
  refine ⟨hfp, by rw [hstack, Memory.read_write_self], ?returnAddress, fun j hj hle => ?callerCells⟩
  case returnAddress => rw [hstack, Memory.read_write_ne _ _ _ _ (by omega), Memory.read_write_self]
  case callerCells =>
    have hindex : (u.fp - 1 - j).toNat = s.sp - j := by omega
    rw [hindex, hstack, Memory.read_write_ne _ _ _ _ (by omega), Memory.read_write_ne _ _ _ _ (by omega)]

end Sys2Proof.Machine

/-! Proofs about `CALL` and the return from it by `EXIT 0` (45_control.md R130, R131, R135). -/
namespace Sys2Proof.Machine

variable {s : State} {r : Word16} {k tgt : Int}

/-! `CALL`. -/

/-- The index after a `CALL` that lies in the image is a 16-bit value, so the pushed cell loses nothing of it
(00_scope.md R5, 90_conflicts.md C3). -/
theorem return_address_fits16 (hinv : s.Inv) (hip : 0 ≤ s.ip) (hend : s.ip + 2 ≤ s.len) : Fits16 (s.ip + 2) := by
  have hlen : s.len ≤ s.cfg.codeCap := hinv.len
  have hcap : s.cfg.codeCap ≤ 32767 := hinv.cfg.1.2
  constructor <;> omega

/-- Outside the image there is no opcode to fetch (40_cycle.md R81). -/
theorem fetch_outside (h : s.ip < 0 ∨ (s.len : Int) ≤ s.ip) : fetch s = .error (.fetchOutOfRange, none) := by
  simp [fetch, h]

/-- With room on the stack `CALL tgt` retires the state after the push of the return address, with `ip` at the target
whatever the target is (45_control.md R130). -/
theorem exec_call_of_room (tgt : Int) (h : s.sp < s.cfg.stackCap) : exec (.call tgt) s =
    .next (retire (.call tgt) s
      ((((advance (.call tgt) s).withCell s.sp (word16 (s.ip + 2))).withSp (s.sp + 1)).withIp tgt)) := by
  have hpush : push (advance (.call tgt) s) (word16 (s.ip + 2)) =
      .ok (((advance (.call tgt) s).withCell s.sp (word16 (s.ip + 2))).withSp (s.sp + 1)) := push_ok h
  have hreturn : (advance (.call tgt) s).ip = s.ip + 2 := rfl
  simp only [exec, execCall, hreturn, hpush, ok_bind, pure_eq_ok, finish_ok]

theorem exec_call_of_full (tgt : Int) (h : s.cfg.stackCap ≤ s.sp) :
    exec (.call tgt) s = .next (faultedAt s .stackOverflow (some 0x0007)) := by
  have hpush : push (advance (.call tgt) s) (word16 (advance (.call tgt) s).ip) = .error .stackOverflow := push_full h
  simp only [exec, execCall, hpush, error_bind, finish_error]
  rfl

/-- Settles O36: the operand fetch comes first, and then `CALL` ends as its push does; the target is looked at only by
the next step's fetch. -/
theorem callPushesTheReturnAddress : Obligations.CallPushesTheReturnAddress := by
  refine ⟨missingOperandFaults_of_unaryOf rfl, fun tgt _ => ⟨rfl, fun s => ⟨fun hroom => ?completes,
    exec_call_of_full tgt⟩⟩⟩
  refine ⟨_, exec_call_of_room tgt hroom, retire_ip .., retire_sp .., retire_fp .., ?pushed,
    fun hinv hip hend => sint16_word16 (return_address_fits16 hinv hip hend), fun j hj => ?cells,
    ⟨retired_retire_of_effect ⟨hroom, rfl⟩, retire_run .., retire_output ..⟩,
    fun ⟨hrun, hreset⟩ hout => ?nextStep⟩
  case pushed => simp
  case cells => simp [hj]
  case nextStep =>
    refine step_of_fetch_error ⟨?running, ?released⟩ (fetch_outside ?outside)
    case running => simpa using hrun
    case released => simpa using hreset
    case outside => simpa [State.len] using hout

/-! `EXIT`. -/

/-- With the lowered `sp` in range over a written cell, `EXIT k`'s body under `DropThenPop` takes that cell into
`ip`. -/
theorem exitDropThenPop_ok (hlow : 0 < (s.sp : Int) - k) (hcap : (s.sp : Int) - k ≤ s.cfg.stackCap)
    (hr : s.stack.read ((s.sp : Int) - k - 1).toNat = some r) :
    exitDropThenPop k s = .ok ((s.withSp ((s.sp : Int) - k - 1).toNat).withIp (sint16 r)) := by
  have htop : ((s.sp : Int) - k).toNat - 1 = ((s.sp : Int) - k - 1).toNat := by omega
  have hpop : pop (s.withSp ((s.sp : Int) - k).toNat) = .ok (r, s.withSp ((s.sp : Int) - k - 1).toNat) := by
    rw [← htop] at hr ⊢
    exact pop_ok (by rw [withSp_sp]; omega) hr
  simp only [exitDropThenPop, moveSp_ok ⟨hlow.le, hcap⟩, ok_bind, hpop, pure_eq_ok]

/-- With a written top cell and the lowered `sp` in range, `EXIT k`'s body under `PopThenDrop` takes the top cell into
`ip`. -/
theorem exitPopThenDrop_ok (hsp : 0 < s.sp) (hr : s.stack.read (s.sp - 1) = some r)
    (hlow : 0 ≤ (s.sp : Int) - 1 - k) (hcap : (s.sp : Int) - 1 - k ≤ s.cfg.stackCap) :
    exitPopThenDrop k s = .ok ((s.withSp ((s.sp : Int) - 1 - k).toNat).withIp (sint16 r)) := by
  have hpopped : ((s.withSp (s.sp - 1)).sp : Int) = (s.sp : Int) - 1 := by rw [withSp_sp]; omega
  have hmove : moveSp (s.withSp (s.sp - 1)) ((s.sp : Int) - 1 - k) = .ok (s.withSp ((s.sp : Int) - 1 - k).toNat) :=
    moveSp_ok ⟨hlow, hcap⟩
  simp only [exitPopThenDrop, pop_ok hsp hr, ok_bind, hpopped, hmove, pure_eq_ok]

/-- With a written top cell `EXIT 0` retires the state after its pop into `ip`, under either order: dropping no cell
commutes with the pop (45_control.md R131, decision D10). -/
theorem exec_exit_zero_of_top (hsp : 0 < s.sp) (hcap : s.sp ≤ s.cfg.stackCap)
    (hr : s.stack.read (s.sp - 1) = some r) : exec (.exit 0) s =
      .next (retire (.exit 0) s (((advance (.exit 0) s).withSp (s.sp - 1)).withIp (sint16 r))) := by
  have htop : ((s.sp : Int) - 1).toNat = s.sp - 1 := by omega
  cases horder : s.cfg.exitOrder with
  | dropThenPop =>
    have hbody := exitDropThenPop_ok (s := advance (.exit 0) s) (k := 0) (r := r) (by simp; omega) (by simp; omega)
      (by simpa [htop] using hr)
    simp only [exec, execExit, horder, hbody, finish_ok, advance_sp, Int.sub_zero, htop]
  | popThenDrop =>
    have hbody := exitPopThenDrop_ok (s := advance (.exit 0) s) (k := 0) hsp hr (by simp; omega) (by simp; omega)
    simp only [exec, execExit, horder, hbody, finish_ok, advance_sp, Int.sub_zero, htop]

/-- Settles O40: `CALL` writes the return address, a 16-bit value, in the cell at the old `sp`, where `EXIT 0`
pops it. -/
theorem callThenExitZeroResumes : Obligations.CallThenExitZeroResumes := by
  intro tgt s t hinv _ hip hend hcall hrun u hcfg hsp hsaved
  obtain ⟨_, ⟨hroom, rfl⟩, rfl⟩ := effect_of_exec_not_faulted hcall hrun
  have htop : u.sp - 1 = s.sp := by omega
  have hcell : u.stack.read (u.sp - 1) = some (word16 (s.ip + 2)) := by
    rw [htop, hsaved, retire_stack, Memory.read_write_self]
  refine ⟨_, exec_exit_zero_of_top (by omega) (by rw [hcfg]; omega) hcell, ?ip, ?sp, retire_fp .., retire_run ..,
    fun j => ?cells⟩
  case ip => rw [retire_ip, withIp_ip, sint16_word16 (return_address_fits16 hinv hip hend)]
  case sp => rw [retire_sp, withIp_sp, withSp_sp, htop]
  case cells => simp

end Sys2Proof.Machine

/-! Proofs about the causes an instruction can fault with (60_exceptions.md R150, R153). -/
namespace Sys2Proof.Machine

open Sys2Proof.Claims

variable {α β : Type} {P : α → Prop} {Q : β → Prop} {cs ds : List Cause} {x : Except Cause α} {s : State}

/-- A body answers a value with the property, or fails with one of the listed causes. -/
def EndsWith (P : α → Prop) (cs : List Cause) (x : Except Cause α) : Prop :=
  (∀ a, x = .ok a → P a) ∧ ∀ c, x = .error c → c ∈ cs

theorem endsWith_ok {a : α} (h : P a) : EndsWith P [] (.ok a) :=
  ⟨fun _ ha => Except.ok.inj ha ▸ h, nofun⟩

/-- A longer list allows more causes. -/
theorem EndsWith.of_subset (h : EndsWith P cs x) (hsub : cs ⊆ ds) : EndsWith P ds x :=
  ⟨h.1, fun c hc => hsub (h.2 c hc)⟩

/-- A sequence fails with a cause of its first part, or with one of its second. -/
theorem EndsWith.bind {f : α → Except Cause β} (hx : EndsWith P cs x) (hf : ∀ a, P a → EndsWith Q ds (f a)) :
    EndsWith Q (cs ++ ds) (x >>= f) := by
  obtain ⟨hval, hcause⟩ := hx
  refine ⟨fun b hb => ?value, fun c hc => ?cause⟩
  case value =>
    obtain ⟨a, ha, hfa⟩ := bind_eq_ok.1 hb
    exact (hf a (hval a ha)).1 b hfa
  case cause =>
    rcases bind_eq_error.1 hc with hfirst | ⟨a, ha, hsecond⟩
    · exact List.mem_append_left _ (hcause c hfirst)
    · exact List.mem_append_right _ ((hf a (hval a ha)).2 c hsecond)

/-! The stack primitives (20_memory.md R46 to R49): none of them ends in Faulted of itself, each fails with its own
causes. -/

theorem push_endsWith (v : Word16) (hrun : s.run ≠ .faulted) :
    EndsWith (fun t => t.run ≠ .faulted) [.stackOverflow] (push s v) := by
  refine ⟨fun t h => ?_, fun c h => by simp [push_cause h]⟩
  obtain ⟨-, rfl⟩ := push_eq_ok.1 h
  exact hrun

/-- Where there is room, `push` cannot fail. -/
theorem push_endsWith_of_room (v : Word16) (hrun : s.run ≠ .faulted) (hroom : s.sp < s.cfg.stackCap) :
    EndsWith (fun t => t.run ≠ .faulted) [] (push s v) :=
  push_ok hroom ▸ endsWith_ok hrun

/-- A `pop` that answers also lowers `sp`, so that there is room for a push after it. -/
theorem pop_endsWith (hrun : s.run ≠ .faulted) :
    EndsWith (fun p => p.2.run ≠ .faulted ∧ p.2.sp < s.sp ∧ p.2.cfg = s.cfg) [.stackUnderflow, .uninitializedRead]
      (pop s) := by
  refine ⟨fun p h => ?_, fun c h => by simpa using pop_cause h⟩
  obtain ⟨hsp, -, ht⟩ := pop_eq_ok.1 h
  rw [ht]
  exact ⟨hrun, Nat.sub_one_lt_of_lt hsp, rfl⟩

theorem memRead_endsWith (s : State) (n : Int) :
    EndsWith (fun _ => True) [.indexOutOfRange, .uninitializedRead] (memRead s n) :=
  ⟨fun _ _ => trivial, fun c h => by simpa using memRead_cause h⟩

theorem memWrite_endsWith (n : Int) (v : Word16) (hrun : s.run ≠ .faulted) :
    EndsWith (fun t => t.run ≠ .faulted) [.indexOutOfRange] (memWrite s n v) := by
  refine ⟨fun t h => ?_, fun c h => by simp [memWrite_cause h]⟩
  obtain ⟨-, rfl⟩ := memWrite_eq_ok.1 h
  exact hrun

theorem moveSp_endsWith (n : Int) (hrun : s.run ≠ .faulted) :
    EndsWith (fun t => t.run ≠ .faulted) [.spOutOfRange] (moveSp s n) := by
  refine ⟨fun t h => ?_, fun c h => by simp [moveSp_cause h]⟩
  obtain ⟨-, rfl⟩ := moveSp_eq_ok.1 h
  exact hrun

/-! The bodies: the causes of the primitives, in the order of the body (60_exceptions.md R153). -/

/-- After two pops there is room for the push, so with `sp` in its range only the pops can fail (42_arithmetic.md
R100). -/
theorem binary_endsWith (f : Int → Int → Int) (hcap : s.sp ≤ s.cfg.stackCap) (hrun : s.run ≠ .faulted) :
    EndsWith (fun u => u.run ≠ .faulted) [.stackUnderflow, .uninitializedRead] (binary f s) := by
  refine ((pop_endsWith hrun).bind fun ⟨rhs, s₁⟩ ⟨hrun₁, hsp₁, hcfg₁⟩ =>
    (pop_endsWith hrun₁).bind fun ⟨lhs, s₂⟩ ⟨hrun₂, hsp₂, hcfg₂⟩ => push_endsWith_of_room _ hrun₂ ?room).of_subset ?pops
  case room =>
    calc s₂.sp < s₁.sp := hsp₂
      _ < s.sp := hsp₁
      _ ≤ s.cfg.stackCap := hcap
      _ = s₂.cfg.stackCap := by rw [hcfg₂, hcfg₁]
  case pops => simp

theorem exitDropThenPop_endsWith (k : Int) (hrun : s.run ≠ .faulted) :
    EndsWith (fun u => u.run ≠ .faulted) [.spOutOfRange, .stackUnderflow, .uninitializedRead] (exitDropThenPop k s) :=
  (moveSp_endsWith _ hrun).bind fun _ hmoved => (pop_endsWith hmoved).bind fun _ hpopped => endsWith_ok hpopped.1

theorem exitPopThenDrop_endsWith (k : Int) (hrun : s.run ≠ .faulted) :
    EndsWith (fun u => u.run ≠ .faulted) [.stackUnderflow, .uninitializedRead, .spOutOfRange] (exitPopThenDrop k s) :=
  (pop_endsWith hrun).bind fun _ hpopped => (moveSp_endsWith _ hpopped.1).bind fun _ hmoved => endsWith_ok hmoved

/-- With `sp` in its range, every instruction's body fails only with a cause listed for the instruction. -/
theorem exec_endsWith (i : Instr) (hcap : s.sp ≤ s.cfg.stackCap) (hrun : s.run ≠ .faulted) :
    ∃ body, exec i s = finish i s body ∧ EndsWith (fun u => u.run ≠ .faulted) (causesAfterFetch i) body := by
  have hstart : (advance i s).run ≠ .faulted := hrun
  cases i with
  | halt => exact ⟨.ok (advance .halt s).halt, rfl, endsWith_ok nofun⟩
  | jmp off =>
    exact ⟨.ok ((advance (.jmp off) s).withIp (relativeTarget (advance (.jmp off) s) off)), rfl, endsWith_ok hstart⟩
  | add | sub | mpy => exact ⟨_, rfl, binary_endsWith _ hcap hstart⟩
  | dot => exact ⟨_, rfl, (pop_endsWith hstart).bind fun _ hpopped => endsWith_ok hpopped.1⟩
  | jzr off =>
    refine ⟨_, rfl, (pop_endsWith hstart).bind fun ⟨x, s₁⟩ hpopped => endsWith_ok ?_⟩
    cases isZero x with
    | true => exact hpopped.1
    | false => exact hpopped.1
  | unlk =>
    exact ⟨_, rfl, (moveSp_endsWith _ hstart).bind fun _ hmoved =>
      (pop_endsWith hmoved).bind fun _ hpopped => endsWith_ok hpopped.1⟩
  | exit k =>
    refine ⟨_, rfl, ?_⟩
    cases s.cfg.exitOrder with
    | dropThenPop => exact exitDropThenPop_endsWith k hstart
    | popThenDrop => exact (exitPopThenDrop_endsWith k hstart).of_subset (by simp [causesAfterFetch])
  | int k => exact ⟨_, rfl, push_endsWith _ hstart⟩
  | call tgt => exact ⟨_, rfl, (push_endsWith _ hstart).bind fun _ hpushed => endsWith_ok hpushed⟩
  | link k => exact ⟨_, rfl, (push_endsWith _ hstart).bind fun _ hpushed => moveSp_endsWith _ hpushed⟩
  | load k => exact ⟨_, rfl, (memRead_endsWith _ _).bind fun _ _ => push_endsWith _ hstart⟩
  | store k => exact ⟨_, rfl, (pop_endsWith hstart).bind fun _ hpopped => memWrite_endsWith _ _ hpopped.1⟩

/-- Settles O23: an instruction ends in Faulted only where its body failed, and the record then holds the body's
cause. -/
theorem faultCausesOfEachInstruction : Obligations.FaultCausesOfEachInstruction := by
  intro i s
  obtain ⟨t, ht⟩ := exec_answers i s
  refine ⟨t, ht, fun hcap hrun hfaulted => ?_⟩
  obtain ⟨body, hexec, hok, hcause⟩ := exec_endsWith i hcap hrun
  rcases finish_cases (hexec ▸ ht) with ⟨u, hu, rfl⟩ | ⟨c, hc, rfl⟩
  · exact absurd ((retire_run ..).symm.trans hfaulted) (hok u hu)
  · exact hcause c hc

end Sys2Proof.Machine

/-! Proofs about runs of any number of steps (70_reset_and_hazards.md R177). -/
namespace Sys2Proof.Machine

/-- What every step of a core keeps, a run of any number of its steps keeps. -/
theorem run_keeps_of_step_keeps (M : Host.Core) {P : M.State → Prop}
    (hstep : ∀ s t, M.step s = .next t → P s → P t) {n : Nat} {s t : M.State} (hrun : M.run n s = .next t)
    (hs : P s) : P t := by
  induction n generalizing s with
  | zero =>
    cases hrun
    exact hs
  | succ n ih =>
    cases hfirst : M.step s with
    | next u =>
      rw [run_succ_of_next M s u n hfirst] at hrun
      exact ih hrun (hstep s u hfirst hs)
    | fault r => simp [Host.Core.run, hfirst] at hrun
    | refused r => simp [Host.Core.run, hfirst] at hrun

/-- A run of any number of steps leaves code memory as it was (20_memory.md R41). -/
theorem run_code {n : Nat} {s t : State} (hrun : core.run n s = .next t) : t.code = s.code :=
  run_keeps_of_step_keeps core (P := fun u : State => u.code = s.code)
    (fun _ _ hstep hsame => (step_code hstep).trans hsame) hrun rfl

/-- Settles O51: no step writes code memory, so by induction no run does, and `LEN` is the length of code memory. -/
theorem runNeverWritesCode : Obligations.RunNeverWritesCode := by
  intro n s t hrun
  have hcode : t.code = s.code := run_code hrun
  exact ⟨hcode, congrArg List.length hcode⟩

end Sys2Proof.Machine

/-! Proofs that every step keeps the engine's invariant (10_state.md R21 to R23, R27, R31, R32), and that only `LINK` and
`UNLK` write `fp` (R24). -/
namespace Sys2Proof.Machine

open Sys2Proof.Claims

variable {i : Instr} {s t u : State}

/-! The registers and stack memory after an instruction's effect. -/

/-- `fp` after an instruction's effect: unchanged, but for `UNLK`, which takes a cell's value, and `LINK`, which takes an
index below the capacity (10_state.md R24). -/
theorem effect_fp (h : Effect i s u) : u.fp = s.fp ∨ (i = .unlk ∧ ∃ v, u.fp = sint16 v) ∨
    (∃ k, i = .link k) ∧ s.sp < s.cfg.stackCap ∧ u.fp = s.sp := by
  cases i with
  | unlk =>
    obtain ⟨v, -, -, -, rfl⟩ := h
    exact .inr (.inl ⟨rfl, v, rfl⟩)
  | link k =>
    obtain ⟨_, -, -, hroom, rfl⟩ := h
    exact .inr (.inr ⟨⟨k, rfl⟩, hroom, rfl⟩)
  | halt | jmp =>
    obtain rfl : u = _ := h
    exact .inl rfl
  | add | sub | mpy =>
    obtain ⟨_, _, _, _, _, _, rfl⟩ := h
    exact .inl rfl
  | call | int =>
    obtain ⟨_, rfl⟩ := h
    exact .inl rfl
  | dot | jzr =>
    obtain ⟨_, _, _, rfl⟩ := h
    exact .inl rfl
  | load | store =>
    obtain ⟨_, _, _, _, rfl⟩ := h
    exact .inl rfl
  | exit =>
    obtain ⟨_, _, rfl, _⟩ := h
    exact .inl rfl

/-- No instruction's effect moves `sp` out of stack memory (10_state.md R22). -/
theorem effect_sp_le (hsp : s.sp ≤ s.cfg.stackCap) (h : Effect i s u) : u.sp ≤ s.cfg.stackCap := by
  cases i with
  | halt | jmp =>
    obtain rfl : u = _ := h
    exact hsp
  | add | sub | mpy =>
    obtain ⟨_, _, _, _, _, _, rfl⟩ := h
    exact (Nat.sub_le _ _).trans hsp
  | dot | jzr =>
    obtain ⟨_, _, _, rfl⟩ := h
    exact (Nat.sub_le _ _).trans hsp
  | store =>
    obtain ⟨_, _, _, _, rfl⟩ := h
    exact (Nat.sub_le _ _).trans hsp
  | call | int =>
    obtain ⟨hroom, rfl⟩ := h
    exact hroom
  | load =>
    obtain ⟨_, _, _, hroom, rfl⟩ := h
    exact hroom
  | unlk =>
    obtain ⟨_, hlow, hhigh, _, rfl⟩ := h
    exact Int.toNat_le.2 hhigh.le
  | link =>
    obtain ⟨_, _, hle, _, rfl⟩ := h
    exact hle
  | exit =>
    obtain ⟨_, _, rfl, hle, _⟩ := h
    exact hle

/-- Stack memory after an instruction's effect: unchanged, or with one cell below the capacity written (20_memory.md R47,
R48). -/
theorem effect_stack (h : Effect i s u) :
    u.stack = s.stack ∨ ∃ n v, n < s.cfg.stackCap ∧ u.stack = s.stack.write n v := by
  cases i with
  | halt | jmp =>
    obtain rfl : u = _ := h
    exact .inl rfl
  | dot | jzr =>
    obtain ⟨_, _, _, rfl⟩ := h
    exact .inl rfl
  | unlk =>
    obtain ⟨_, _, _, _, rfl⟩ := h
    exact .inl rfl
  | exit =>
    obtain ⟨_, _, rfl, _⟩ := h
    exact .inl rfl
  | add | sub | mpy =>
    obtain ⟨_, _, hsp, hcap, _, _, rfl⟩ := h
    exact .inr ⟨_, _, by omega, rfl⟩
  | call | int =>
    obtain ⟨hroom, rfl⟩ := h
    exact .inr ⟨_, _, hroom, rfl⟩
  | link | load =>
    obtain ⟨_, _, _, hroom, rfl⟩ := h
    exact .inr ⟨_, _, hroom, rfl⟩
  | store =>
    obtain ⟨_, _, _, ⟨hlow, hhigh⟩, rfl⟩ := h
    exact .inr ⟨_, _, (Int.toNat_lt hlow).2 hhigh, rfl⟩

/-- Where an instruction's effect leaves `ip`: after the instruction, at its immediate, at its immediate from there, or
at a cell's value (10_state.md R21). -/
theorem effect_ip (h : Effect i s u) : u.ip = s.ip + i.size ∨
    (∃ k, i.operand = some k ∧ (u.ip = k ∨ u.ip = s.ip + i.size + k)) ∨ ∃ w, u.ip = sint16 w := by
  cases i with
  | halt =>
    obtain rfl : u = _ := h
    exact .inl rfl
  | jmp off =>
    obtain rfl : u = _ := h
    exact .inr (.inl ⟨off, rfl, .inr rfl⟩)
  | jzr off =>
    obtain ⟨x, _, _, rfl⟩ := h
    cases hzero : isZero x with
    | true => exact .inr (.inl ⟨off, rfl, .inr (by simp [Instr.size, Instr.operand])⟩)
    | false => exact .inl (by simp [Instr.size, Instr.operand])
  | call tgt =>
    obtain ⟨_, rfl⟩ := h
    exact .inr (.inl ⟨tgt, rfl, .inl rfl⟩)
  | exit =>
    obtain ⟨r, _, rfl, _⟩ := h
    exact .inr (.inr ⟨r, rfl⟩)
  | int =>
    obtain ⟨_, rfl⟩ := h
    exact .inl rfl
  | add | sub | mpy =>
    obtain ⟨_, _, _, _, _, _, rfl⟩ := h
    exact .inl rfl
  | dot =>
    obtain ⟨_, _, _, rfl⟩ := h
    exact .inl rfl
  | unlk | link | load | store =>
    obtain ⟨_, _, _, _, rfl⟩ := h
    exact .inl rfl

/-! The ranges an effect keeps. -/

/-- A fetched instruction is well formed and lies in the image with all its cells (30_encoding.md R61, 40_cycle.md
R83). -/
theorem wellFormed_of_fetch_ok (hf : fetch s = .ok i) :
    i.wellFormed = true ∧ 0 ≤ s.ip ∧ s.ip + i.size ≤ s.len := by
  obtain ⟨⟨hip, hlen⟩, rest, hd⟩ := fetch_eq_ok.1 hf
  obtain ⟨hwf, hcells⟩ := decodedCellsAreTheEncoding _ _ _ hd
  have hcount : s.len - s.ip.toNat = i.size + rest.length := by
    rw [← encode_length, ← List.length_append, ← hcells, List.length_drop, State.len]
  exact ⟨hwf, hip, by omega⟩

/-- The effect of a fetched instruction leaves `ip` in its range: the image ends at `CODE_CAP` and a displacement is a
16-bit value (10_state.md R21). -/
theorem effect_ip_range (hlen : s.len ≤ s.cfg.codeCap) (hf : fetch s = .ok i) (h : Effect i s u) :
    -32768 ≤ u.ip ∧ u.ip ≤ s.cfg.codeCap + 32767 := by
  obtain ⟨hwf, hip, hend⟩ := wellFormed_of_fetch_ok hf
  rcases effect_ip h with hnext | ⟨k, hk, htarget⟩ | ⟨w, hw⟩
  · omega
  · obtain ⟨hlow, hhigh⟩ : Fits16 k := (wellFormed_iff_fits16 hk).1 hwf
    omega
  · obtain ⟨hlow, hhigh⟩ := sint16_bounds w
    omega

theorem effect_fp_fits16 (hcfg : s.cfg.wf) (hfp : Fits16 s.fp) (h : Effect i s u) : Fits16 u.fp := by
  rcases effect_fp h with hsame | ⟨-, v, hv⟩ | ⟨-, hroom, hsp⟩
  · rwa [hsame]
  · rw [hv]
    exact sint16_bounds v
  · obtain ⟨-, -, hcap⟩ := hcfg
    rw [hsp]
    constructor <;> omega

theorem effect_output_fits16 (hout : ∀ v ∈ s.output, Fits16 v) (h : Effect i s u) : ∀ v ∈ u.output, Fits16 v := by
  rcases effect_output h with hsame | ⟨-, x, -, -, hemit⟩
  · rwa [hsame]
  · intro v hv
    rw [hemit] at hv
    rcases List.mem_append.1 hv with hold | hnew
    · exact hout v hold
    · rw [List.mem_singleton.1 hnew]
      exact sint16_bounds x

/-- No instruction's effect leaves the canonical form of stack memory or lists a cell outside it (10_state.md R32). -/
theorem effect_stack_canonical (hwf : s.stack.wf) (hbound : ∀ c ∈ s.stack, c.1 < s.cfg.stackCap) (h : Effect i s u) :
    u.stack.wf ∧ ∀ c ∈ u.stack, c.1 < s.cfg.stackCap := by
  rcases effect_stack h with hsame | ⟨n, v, hn, hwrite⟩
  · rw [hsame]
    exact ⟨hwf, hbound⟩
  · rw [hwrite]
    exact ⟨Memory.wf_write hwf n v, Memory.bound_write hbound hn v⟩

/-! The invariant. -/

/-- The effect of a fetched instruction keeps the invariant. -/
theorem effect_inv (hinv : s.Inv) (hrun : s.run = .running) (hf : fetch s = .ok i) (h : Effect i s u) : u.Inv := by
  obtain ⟨hrecord, hcode, hcfg, -, -⟩ := effect_same h
  obtain ⟨hwf, hbound⟩ := effect_stack_canonical hinv.stackWf hinv.stackBound h
  have hnotFaulted : u.run ≠ .faulted := effect_run_ne_faulted hrun h
  exact {
    cfg := by rw [hcfg]; exact hinv.cfg
    len := by rw [State.len, hcode, hcfg]; exact hinv.len
    sp := by rw [hcfg]; exact effect_sp_le hinv.sp h
    fp := effect_fp_fits16 hinv.cfg hinv.fp h
    ip := by rw [hcfg]; exact effect_ip_range hinv.len hf h
    stackWf := hwf
    stackBound := by rw [hcfg]; exact hbound
    output := effect_output_fits16 hinv.output h
    noRecord := fun _ => hrecord.trans (hinv.noRecord (by simp [hrun]))
    recordCause := fun hfaulted => absurd hfaulted hnotFaulted
    recordAddr := fun hfaulted => absurd hfaulted hnotFaulted }

/-- A fault keeps the invariant: it writes only the run state and a record that describes it (60_exceptions.md R151). -/
theorem takeFault_inv {c : Cause} {op : Option Word16} (hinv : s.Inv) (hcause : c ≠ .noFault)
    (hop : op = none ↔ c = .fetchOutOfRange) : (takeFault s c op).Inv :=
  { hinv with
    noRecord := fun hrun => absurd rfl hrun
    recordCause := fun _ => ⟨hcause, hop⟩
    recordAddr := fun _ => rfl }

/-- Settles O15: a failed fetch faults precisely, and a fetched instruction retires with its effect or faults with a cause
of its own. -/
theorem stepKeepsTheEngineInvariant : Obligations.StepKeepsTheEngineInvariant := by
  intro s t hinv h
  obtain ⟨⟨hrun, -⟩, ⟨c, op, hf, rfl⟩ | ⟨i, hf, hexec⟩⟩ := step_cases h
  · obtain ⟨hcause, hop, -⟩ := fetch_error_precise hf
    exact takeFault_inv hinv hcause hop
  · rcases exec_cases hexec with ⟨u, hu, rfl⟩ | ⟨c, hcause, hfetched, rfl⟩
    · exact retire_inv (effect_inv hinv hrun hf hu)
    · exact takeFault_inv hinv hcause (by simp [hfetched])

/-- Settles O19: a fault keeps `fp`, and of the effects only those of `UNLK` and `LINK` write it. -/
theorem onlyLinkAndUnlkChangeFp : Obligations.OnlyLinkAndUnlkChangeFp := by
  intro s t h hne
  rcases step_faults_or_retires h with ⟨c, op, rfl⟩ | ⟨i, u, hf, hu, rfl⟩
  · exact absurd rfl hne
  · rw [retire_fp] at hne
    have hop : OpcodeAtIp s i.opcode := opcodeAtIp_of_fetch_ok hf
    rcases effect_fp hu with hsame | ⟨rfl, -⟩ | ⟨⟨k, rfl⟩, -⟩
    · exact absurd hsame hne
    · exact .inl hop
    · exact .inr hop

end Sys2Proof.Machine

/-! Proofs about reset, the host's actions and the status registers (10_state.md R28, R34, R35; 70_reset_and_hazards.md
R170 to R175). -/
namespace Sys2Proof.Machine

variable {s t : State}

/-! Reset. -/

/-- Any launch within the capacities meets the invariant (00_scope.md R5, 10_state.md R35). -/
theorem launch_inv {cfg : Config} {image : List Word16} (hcfg : cfg.wf) (hlen : image.length ≤ cfg.codeCap) :
    (State.launch cfg image).Inv where
  cfg := hcfg
  len := hlen
  sp := Nat.zero_le _
  fp := (by decide : Fits16 0)
  ip := by simp only [State.launch]; omega
  stackWf := .nil
  stackBound := nofun
  output := nofun
  noRecord := fun _ => rfl
  recordCause := nofun
  recordAddr := nofun

/-- Settles O16: the state after reset is the launch with the default parameters and no image. -/
theorem resetMeetsTheEngineInvariant : Obligations.ResetMeetsTheEngineInvariant :=
  ⟨launch_inv (by decide) (Nat.zero_le _), fun _ _ => launch_inv⟩

/-- Settles O46: each value is read off the state after reset. -/
theorem resetValuesOfTheState : Obligations.ResetValuesOfTheState :=
  ⟨rfl, rfl, rfl, rfl, rfl, rfl, fun _ => rfl, rfl, rfl, rfl, rfl, rfl, rfl, rfl⟩

/-- Settles O13: a step is enabled only with reset released. -/
theorem noStepWhileResetIsAsserted : Obligations.NoStepWhileResetIsAsserted := by
  intro s hheld t h
  obtain ⟨⟨-, hreleased⟩, -⟩ := step_cases h
  simp [hheld] at hreleased

/-- Settles O47: asserting reset is the launch with the image and the parameters kept, but for the reset input, which
releasing sets. -/
theorem assertResetKeepsOnlyTheImage : Obligations.AssertResetKeepsOnlyTheImage :=
  fun s => ⟨assertReset s, rfl, rfl, rfl, rfl, rfl, rfl, fun _ => rfl, rfl, rfl, rfl,
    noStepWhileResetIsAsserted _ rfl, rfl⟩

/-! Loading. -/

/-- Settles O49: with `LEN = CODE_CAP` the reply is the refusal, on which a load does nothing. -/
theorem loadPastCapacityIsRefused : Obligations.LoadPastCapacityIsRefused := by
  intro s w hheld hlen
  have hreply : loadReply s = .refusedFull := by simp [loadReply, hheld, hlen]
  exact ⟨hreply, by simp [hostAct, loadCell, hreply]⟩

/-- Under reset, with room in code memory, a load appends its cell (70_reset_and_hazards.md R172). -/
theorem loadCell_of_room (w : Word16) (hheld : s.resetHeld = true) (hroom : s.len < s.cfg.codeCap) :
    loadCell s w = { s with code := s.code ++ [w] } := by
  simp [loadCell, loadReply, hheld, Nat.not_le.2 hroom]

/-- Transactions in order go on from where the first of them end. -/
theorem hostRun_append {as : List HostAction} (h : hostRun as s = .next t) (bs : List HostAction) :
    hostRun (as ++ bs) s = hostRun bs t := by
  induction as generalizing s with
  | nil =>
    cases h
    rfl
  | cons a as ih =>
    cases hfirst : hostAct a s with
    | next u =>
      simp only [hostRun, hfirst] at h
      simpa only [List.cons_append, hostRun, hfirst] using ih h
    | fault r => simp [hostRun, hfirst] at h
    | refused r => simp [hostRun, hfirst] at h

/-- Under reset, loading the cells of an image that fits appends the image (70_reset_and_hazards.md R174). -/
theorem hostRun_loads (image : List Word16) (hheld : s.resetHeld = true)
    (hfit : s.code.length + image.length ≤ s.cfg.codeCap) :
    hostRun (image.map .load) s = .next { s with code := s.code ++ image } := by
  induction image generalizing s with
  | nil => simp [hostRun]
  | cons w image ih =>
    simp only [List.length_cons] at hfit
    have hload : hostAct (.load w) s = .next { s with code := s.code ++ [w] } :=
      congrArg _ (loadCell_of_room w hheld (by simp only [State.len]; omega))
    have hrest := ih (s := { s with code := s.code ++ [w] }) hheld (by simp; omega)
    simpa only [List.map_cons, hostRun, hload, List.append_assoc, List.singleton_append] using hrest

/-- Settles O48: the loads run under reset on an empty code memory, between the clear and the release. -/
theorem bootLoadsTheImage : Obligations.BootLoadsTheImage := by
  intro s image hfit
  have hcleared : hostRun [.assertReset, .clear] s = .next { State.launch s.cfg [] with resetHeld := true } := rfl
  have hloaded := hostRun_loads (s := { State.launch s.cfg [] with resetHeld := true }) image rfl
    (by simpa [State.launch] using hfit)
  rw [bootActions, List.append_assoc, hostRun_append hcleared, hostRun_append hloaded]
  rfl

/-! The invariant. -/

/-- The invariant asks of code memory only that it fits, and nothing of the reset input. -/
theorem inv_of_image {code : List Word16} {held : Bool} (hinv : s.Inv) (hlen : code.length ≤ s.cfg.codeCap) :
    State.Inv { s with code := code, resetHeld := held } :=
  { hinv with len := hlen }

theorem assertReset_inv (hinv : s.Inv) : (assertReset s).Inv :=
  inv_of_image (launch_inv hinv.cfg hinv.len) hinv.len

theorem clearCode_inv (hinv : s.Inv) : (clearCode s).Inv := by
  unfold clearCode
  split
  · exact inv_of_image hinv (Nat.zero_le _)
  · exact hinv

/-- A load keeps the invariant: it is refused at `LEN = CODE_CAP` (70_reset_and_hazards.md R172). -/
theorem loadCell_inv (w : Word16) (hinv : s.Inv) : (loadCell s w).Inv := by
  cases hheld : s.resetHeld with
  | false => rwa [loadCell_of_released w hheld]
  | true =>
    rcases Nat.lt_or_ge s.len s.cfg.codeCap with hroom | hfull
    · rw [loadCell_of_room w hheld hroom]
      exact inv_of_image hinv (by simpa [State.len] using hroom)
    · have hrefused : loadReply s = .refusedFull := by simp [loadReply, hheld, hfull]
      simpa [loadCell, hrefused] using hinv

/-- Settles O52: every step keeps the invariant, asserting reset is a launch under reset, and the host's other actions write
only code memory and the reset input. -/
theorem hostActionsKeepTheEngineInvariant : Obligations.HostActionsKeepTheEngineInvariant := by
  intro s t a hinv h
  cases a with
  | step => exact stepKeepsTheEngineInvariant s t hinv h
  | assertReset =>
    cases h
    exact assertReset_inv hinv
  | releaseReset =>
    cases h
    exact inv_of_image hinv hinv.len
  | clear =>
    cases h
    exact clearCode_inv hinv
  | load w =>
    cases h
    exact loadCell_inv w hinv
  | writeRegister =>
    cases h
    exact hinv

/-! The status registers. -/

/-- The value of `STATUS.CAUSE`, 0 when not faulted. -/
def statusCause (s : State) : Nat := if s.run = .faulted then causeCode s.record.cause else 0

/-- The value of `STATUS.OPC_VALID`. -/
def statusValid (s : State) : Nat := if s.record.opcode.isSome then 1 else 0

theorem runCode_le (r : RunState) : runCode r ≤ 2 := by
  cases r <;> decide

theorem statusCause_le (s : State) : statusCause s ≤ 8 := by
  unfold statusCause
  split
  · cases s.record.cause <;> decide
  · exact Nat.zero_le 8

theorem statusValid_le (s : State) : statusValid s ≤ 1 := by
  unfold statusValid
  split <;> decide

/-- `STATUS` as a number: no code overflows its field (10_state.md R28). -/
theorem statusReg_toNat (s : State) : (statusReg s).toNat = runCode s.run + 16 * statusCause s + 256 * statusValid s := by
  have hrun := runCode_le s.run
  have hcause := statusCause_le s
  have hvalid := statusValid_le s
  have hlt : runCode s.run + 16 * statusCause s + 256 * statusValid s < 2 ^ 16 := by omega
  exact (BitVec.toNat_ofNat ..).trans (Nat.mod_eq_of_lt hlt)

/-- A field of `STATUS`, at its place in the number. -/
theorem statusReg_field {start len : Nat} {field : BitVec len}
    (h : (statusReg s).toNat / 2 ^ start % 2 ^ len = field.toNat) : (statusReg s).extractLsb' start len = field := by
  apply BitVec.eq_of_toNat_eq
  rw [BitVec.extractLsb'_toNat, Nat.shiftRight_eq_div_pow, h]

/-- `OPC_VALID` is set exactly when the record holds an opcode, and `FAULT_OPC` is then that opcode. -/
theorem statusValid_eq_one (s : State) : statusValid s = 1 ↔ ∃ op, s.record.opcode = some op ∧ faultOpcReg s = op := by
  cases hop : s.record.opcode <;> simp [statusValid, faultOpcReg, hop]

/-- Settles O53: the codes do not overlap in the number `STATUS` holds, so each field is its own code. -/
theorem statusFieldsOfTheLayout : Obligations.StatusFieldsOfTheLayout := by
  intro s
  have hrun := runCode_le s.run
  have hcause := statusCause_le s
  have hvalid := statusValid_le s
  have hnum := statusReg_toNat s
  refine ⟨statusReg_field ?run, statusReg_field ?reserved, fun hne => statusReg_field ?noCause,
    fun heq => statusReg_field ?cause, ?valid, statusReg_field ?high⟩
  case run =>
    calc (statusReg s).toNat / 2 ^ 0 % 2 ^ 2 = runCode s.run := by omega
      _ = _ := by cases s.run <;> rfl
  case reserved =>
    show (statusReg s).toNat / 2 ^ 2 % 2 ^ 2 = 0
    omega
  case noCause =>
    have hzero : statusCause s = 0 := by simp [statusCause, hne]
    show (statusReg s).toNat / 2 ^ 4 % 2 ^ 4 = 0
    omega
  case cause =>
    calc (statusReg s).toNat / 2 ^ 4 % 2 ^ 4 = statusCause s := by omega
      _ = causeCode s.record.cause := by simp [statusCause, heq]
      _ = _ := by cases s.record.cause <;> rfl
  case valid =>
    rw [← statusValid_eq_one, ← BitVec.toNat_inj, BitVec.extractLsb'_toNat, Nat.shiftRight_eq_div_pow]
    show (statusReg s).toNat / 2 ^ 8 % 2 ^ 1 = 1 ↔ statusValid s = 1
    omega
  case high =>
    show (statusReg s).toNat / 2 ^ 9 % 2 ^ 7 = 0
    omega

/-- Settles O54: the record's address is 0 until a fault and `ip` after it, which 17 bits hold. -/
theorem faultAddrHoldsTheAddress : Obligations.FaultAddrHoldsTheAddress := by
  intro s hinv
  obtain ⟨⟨-, hcap⟩, -⟩ := hinv.cfg
  obtain ⟨hlow, hhigh⟩ := hinv.ip
  have haddr : s.record.addr = 0 ∨ s.record.addr = s.ip := by
    by_cases hrun : s.run = .faulted
    · exact .inr (hinv.recordAddr hrun)
    · exact .inl (by rw [hinv.noRecord hrun]; rfl)
  exact BitVec.toInt_ofInt_eq_self (by decide) (by omega) (by omega)

end Sys2Proof.Machine

/-! Proofs about the opcode values no row of the map has, and about lines the encoder refuses (30_encoding.md R65, R73 to
R77; 40_cycle.md R81, R83). -/
namespace Sys2Proof.Machine

open Sys2Proof.Claims

variable {i : Instr} {op : Word16} {line : Line} {codeCap : Nat}

/-! Cells and opcodes. -/

/-- Settles O6: the signed reading lies in the 16-bit range, on which it and `word16` undo each other. -/
theorem signedReadingOfCellsIsExact : Obligations.SignedReadingOfCellsIsExact :=
  ⟨fun w => ⟨sint16_bounds w, word16_sint16 w⟩, fun _ => sint16_word16⟩

/-- An opcode refused as unrecognised is in no row of the map. -/
theorem no_row_of_decode_unrecognized {rest : List Word16} (h : decode (op :: rest) = .error (.unrecognizedOpcode op)) :
    nullaryOf op = none ∧ unaryOf op = none := by
  cases hn : nullaryOf op with
  | some i =>
    rw [decode_of_nullaryOf hn] at h
    cases h
  | none =>
    cases hu : unaryOf op with
    | none => exact ⟨rfl, rfl⟩
    | some mk =>
      cases rest with
      | nil =>
        rw [decode_singleton_of_unaryOf hu] at h
        cases h
      | cons w rest =>
        rw [decode_of_unaryOf hu] at h
        cases h

/-- Settles O3: the rows of the map are the values 0 to 5 and 7 to 14. -/
theorem illegalOpcodesAreExactlyRefused : Obligations.IllegalOpcodesAreExactlyRefused := by
  intro op rest
  refine ⟨fun h => ?_, fun h => decode_of_unrecognized h rest⟩
  obtain ⟨hn, hu⟩ := no_row_of_decode_unrecognized h
  have hnullary := nullaryOf_eq_none.1 hn
  have hunary := unaryOf_eq_none.1 hu
  omega

/-- Settles O9: outside the image the fetch has no opcode to record. -/
theorem fetchOutsideTheImageFaults : Obligations.FetchOutsideTheImageFaults :=
  fun _ he hout => step_of_fetch_error he (fetch_outside hout)

/-- Settles O11: each of the values 7 to 14 has a unary row, whose operand fetch comes before any execution. -/
theorem unaryOpcodeAtTheEndFaults : Obligations.UnaryOpcodeAtTheEndFaults := by
  intro op hlow hhigh
  have hrow : unaryOf op ≠ none := fun hnone => by
    have := unaryOf_eq_none.1 hnone
    omega
  obtain ⟨mk, hmk⟩ := Option.ne_none_iff_exists'.1 hrow
  exact missingOperandFaults_of_unaryOf hmk

/-! Lines and sources. -/

section UnaryLine

variable {mnemonic rest : Line} {mk : Int → Instr} (hmem : (mnemonic, LineShape.unary mk) ∈ asmTable)
include hmem

/-- A unary line whose rest writes an operand is read by the operand's range (30_encoding.md R73). -/
theorem readLine_of_operand {n : Int} (h : readOperand rest = some n) : readLine (mnemonic ++ rest) =
    if Fits16 n then .ok (mk n) else .error (.malformedOperand (mnemonic ++ rest)) := by
  simp only [readLine, recognise_append hmem rest, h]

theorem readLine_of_no_operand (h : readOperand rest = none) :
    readLine (mnemonic ++ rest) = .error (.malformedOperand (mnemonic ++ rest)) := by
  simp only [readLine, recognise_append hmem rest, h]

end UnaryLine

/-- Settles O56: the operand reader admits exactly the texts of the grammar, and its value is then checked against 16
bits. -/
theorem unaryLineReadsTheDecimalOperand : Obligations.UnaryLineReadsTheDecimalOperand := by
  intro mnemonic mk rest hmem
  refine ⟨fun n htext hfits => ?fits, fun n htext hfits => ?tooWide, fun hnone => ?outside⟩
  case fits => rw [readLine_of_operand hmem (readOperand_eq_some.2 htext), if_pos hfits]
  case tooWide => rw [readLine_of_operand hmem (readOperand_eq_some.2 htext), if_neg hfits]
  case outside =>
    refine readLine_of_no_operand hmem (Option.eq_none_iff_forall_ne_some.2 fun n hn => ?_)
    exact hnone n (readOperand_eq_some.1 hn)

/-- After lines it admits, the transcriber goes on from their cells. -/
theorem transcribeFrom_append {stream image : List Word16} {before : List Line}
    (h : transcribeFrom codeCap stream before = .ok image) (after : List Line) :
    transcribeFrom codeCap stream (before ++ after) = transcribeFrom codeCap image after := by
  induction before generalizing stream with
  | nil =>
    cases h
    rfl
  | cons line lines ih =>
    obtain ⟨i, hread, hfit, hrest⟩ := transcribeFrom_cons_eq_ok.1 h
    rw [List.cons_append, transcribeFrom_cons hread hfit, ih hrest]

/-- Every line of an admitted source reads as an instruction. -/
theorem readLine_ok_of_transcribe_ok {source : List Line} {image : List Word16} (h : transcribe codeCap source = .ok image)
    (hline : line ∈ source) : ∃ i, readLine line = .ok i := by
  obtain ⟨is, hread, -, -⟩ := (admittedSourceIsInstructions.1 codeCap source image).1 h
  obtain ⟨k, hk, rfl⟩ := List.getElem_of_mem hline
  exact ⟨_, hread.get hk (hread.length_eq ▸ hk)⟩

/-- Settles O59: an admitted source has no bad line, and after admitted lines the next one decides. -/
theorem firstBadLineRefusesTheSource : Obligations.FirstBadLineRefusesTheSource := by
  constructor
  · intro codeCap before after line e hbad image hadmitted
    obtain ⟨i, hread⟩ := readLine_ok_of_transcribe_ok hadmitted (List.mem_append_right before List.mem_cons_self)
    rw [hbad] at hread
    cases hread
  · intro codeCap before after line image hbefore
    have hgoesOn : transcribe codeCap (before ++ line :: after) = transcribeFrom codeCap image (line :: after) :=
      transcribeFrom_append hbefore _
    refine ⟨fun e hbad => ?unreadable, fun i hread hover => ?overflow⟩
    case unreadable => simp only [hgoesOn, transcribeFrom, hbad]
    case overflow =>
      rw [encode_length] at hover
      simp only [hgoesOn, transcribeFrom, hread, if_pos hover]

end Sys2Proof.Machine

/-! Proofs about the bodies that pop twice, and about `LINK` and `UNLK` (42_arithmetic.md R100, 44_frame.md R122, R123):
each instruction ends as the first of its checks that fails. -/
namespace Sys2Proof.Machine

open Sys2Proof.Claims

variable {i : Instr} {s t : State} {x : Word16} {k : Int} {c : Cause} {f : Int → Int → Int}

/-- An instruction whose body fails takes the body's fault (40_cycle.md R85). -/
theorem exec_of_body_error {body : Except Cause State} (hexec : exec i s = finish i s body) (hbody : body = .error c) :
    exec i s = .next (faultedAt s c (some i.opcode)) := by
  rw [hexec, hbody]
  rfl

/-- An instruction whose body answers a working copy retires it (40_cycle.md R86). -/
theorem exec_of_body_ok {body : Except Cause State} (hexec : exec i s = finish i s body) (hbody : body = .ok t) :
    exec i s = .next (retire i s t) := by
  rw [hexec, hbody]
  rfl

/-! `ADD`, `SUB`, `MPY`. -/

theorem binary_of_first_error (h : pop s = .error c) : binary f s = .error c := by
  simp only [binary, h, error_bind]

theorem binary_of_second_error (hfirst : pop s = .ok (x, t)) (hsecond : pop t = .error c) : binary f s = .error c := by
  simp only [binary, hfirst, ok_bind, hsecond, error_bind]

/-- Settles O26: the three instructions run the shared body, which ends at the first pop that fails. -/
theorem arithmeticFaultsInPopOrder : Obligations.ArithmeticFaultsInPopOrder := by
  intro i hi s
  obtain ⟨f, hexec⟩ : ∃ f, exec i s = finish i s (binary f (advance i s)) := by
    rcases hi with rfl | rfl | rfl <;> exact ⟨_, rfl⟩
  refine ⟨fun hempty => ?empty, fun hsp hnone => ?unwritten, fun x hone hx => ?oneCell, fun x hsp hx hnone => ?second⟩
  case empty => exact exec_of_body_error hexec (binary_of_first_error (pop_empty hempty))
  case unwritten => exact exec_of_body_error hexec (binary_of_first_error (pop_unwritten hsp hnone))
  case oneCell =>
    have hfirst : pop (advance i s) = .ok (x, (advance i s).withSp (s.sp - 1)) :=
      pop_ok (by simp [hone]) (by simpa [hone] using hx)
    exact exec_of_body_error hexec (binary_of_second_error hfirst (pop_empty (by simp [hone])))
  case second =>
    have hfirst : pop (advance i s) = .ok (x, (advance i s).withSp (s.sp - 1)) := pop_ok (Nat.zero_lt_of_lt hsp) hx
    have hsecond : pop ((advance i s).withSp (s.sp - 1)) = .error .uninitializedRead :=
      pop_unwritten (Nat.sub_pos_of_lt hsp) hnone
    exact exec_of_body_error hexec (binary_of_second_error hfirst hsecond)

/-! `LINK`. -/

/-- What is left of `LINK k` after its push of `fp` is the checked move of `sp` (44_frame.md R122). -/
theorem exec_link_of_push (hroom : s.sp < s.cfg.stackCap) : exec (.link k) s = finish (.link k) s
    (moveSp ((((advance (.link k) s).withCell s.sp (word16 s.fp)).withSp (s.sp + 1)).withFp s.sp) (s.sp + 1 + k)) := by
  have hpush : push (advance (.link k) s) (word16 s.fp) =
      .ok (((advance (.link k) s).withCell s.sp (word16 s.fp)).withSp (s.sp + 1)) := push_ok hroom
  simp only [exec, execLink, hpush, ok_bind, withSp_sp, withFp_sp, Nat.cast_add, Nat.cast_one, add_sub_cancel_right]

/-- Settles O31: the push of `fp` has room, and the move of `sp` is in range. -/
theorem linkOpensTheFrame : Obligations.LinkOpensTheFrame := by
  intro k s hroom hlow hcap
  refine ⟨_, exec_of_body_ok (exec_link_of_push hroom) (moveSp_ok ⟨hlow, hcap⟩), ?saved, sint16_word16, retire_fp .., ?sp,
    retire_ip .., fun j hj => ?cells, retired_retire_of_effect ⟨_, ?newSp, ?inStack, hroom, rfl⟩, retire_run ..,
    retire_output ..⟩
  case saved => simp
  case sp => simpa using hlow
  case cells => simp [hj]
  case newSp => exact Int.toNat_of_nonneg hlow
  case inStack => omega

/-- Settles O32: the push of `fp` comes before the check of the new `sp`. -/
theorem linkFaultsInOrder : Obligations.LinkFaultsInOrder := by
  intro k s
  refine ⟨fun hfull => ?full, fun hroom hout => exec_of_body_error (exec_link_of_push hroom) (moveSp_outside hout)⟩
  case full =>
    have hpush : push (advance (.link k) s) (word16 s.fp) = .error .stackOverflow := push_full hfull
    exact exec_of_body_error rfl (by simp only [hpush, error_bind])

/-! `UNLK`. -/

/-- With `fp` from -1 below the capacity, what is left of `UNLK` is the pop of the saved `fp` (44_frame.md R123). -/
theorem exec_unlk_of_fp_range (hlow : -1 ≤ s.fp) (hhigh : s.fp < s.cfg.stackCap) : exec .unlk s = finish .unlk s do
    let (v, t) ← pop ((advance .unlk s).withSp (s.fp + 1).toNat)
    return t.withFp (sint16 v) := by
  have hmove : moveSp (advance .unlk s) (s.fp + 1) = .ok ((advance .unlk s).withSp (s.fp + 1).toNat) :=
    moveSp_ok (by rw [advance_cfg]; omega)
  simp only [exec, execUnlk, hmove, ok_bind]

/-- Settles O33: `fp` in stack memory leads to the saved cell, which the pop reads. -/
theorem unlkClosesTheFrame : Obligations.UnlkClosesTheFrame := by
  intro s v hin hv
  refine ⟨_, exec_unlk_of_saved hin hv, ?sp, retire_fp .., retire_ip .., fun j => ?cells,
    retired_retire_of_effect ⟨v, hin.1, hin.2, hv, rfl⟩, retire_run .., retire_output ..⟩
  case sp => simpa using hin.1
  case cells => simp

/-- Settles O34: the check of the new `sp` comes first, then the pop at it. -/
theorem unlkFaultsInOrder : Obligations.UnlkFaultsInOrder := by
  intro s
  refine ⟨fun hout => ?outside, fun hfp => ?empty, fun hin hnone => ?unwritten⟩
  case outside =>
    have hmove : moveSp (advance .unlk s) (s.fp + 1) = .error .spOutOfRange :=
      moveSp_outside (by rw [advance_cfg]; omega)
    exact exec_of_body_error rfl (by simp only [hmove, error_bind])
  case empty =>
    have hpop : pop ((advance .unlk s).withSp (s.fp + 1).toNat) = .error .stackUnderflow := pop_empty (by simp [hfp])
    exact exec_of_body_error (exec_unlk_of_fp_range (by omega) (by omega)) (by simp only [hpop, error_bind])
  case unwritten =>
    have htop : (s.fp + 1).toNat - 1 = s.fp.toNat := by omega
    have hpop : pop ((advance .unlk s).withSp (s.fp + 1).toNat) = .error .uninitializedRead :=
      pop_unwritten (by rw [withSp_sp]; omega) (by simpa [htop] using hnone)
    exact exec_of_body_error (exec_unlk_of_fp_range (by omega) hin.2) (by simp only [hpop, error_bind])

end Sys2Proof.Machine

/-! Proofs about `EXIT`, `JZR` and `JMP` (45_control.md R131 to R133). -/
namespace Sys2Proof.Machine

open Sys2Proof.Claims

variable {s : State} {x r : Word16} {k off : Int} {c : Cause}

/-! `EXIT` under `DropThenPop`. -/

theorem exec_exit_of_dropThenPop (horder : s.cfg.exitOrder = .dropThenPop) :
    exec (.exit k) s = finish (.exit k) s (exitDropThenPop k (advance (.exit k) s)) := by
  simp only [exec, execExit, horder]

/-- A lowered `sp` out of range fails before the pop. -/
theorem exitDropThenPop_outside (h : (s.sp : Int) - k < 0 ∨ (s.cfg.stackCap : Int) < s.sp - k) :
    exitDropThenPop k s = .error .spOutOfRange := by
  simp only [exitDropThenPop, moveSp_outside h, error_bind]

/-- With the lowered `sp` in range, the pop there can still fail. -/
theorem exitDropThenPop_of_pop_error (hlow : 0 ≤ (s.sp : Int) - k) (hcap : (s.sp : Int) - k ≤ s.cfg.stackCap)
    (hpop : pop (s.withSp ((s.sp : Int) - k).toNat) = .error c) : exitDropThenPop k s = .error c := by
  simp only [exitDropThenPop, moveSp_ok ⟨hlow, hcap⟩, ok_bind, hpop, error_bind]

/-- Settles O37: the lowered `sp` is checked first, then the cell under it is popped. -/
theorem exitDropsThenPops : Obligations.ExitDropsThenPops := by
  intro k s horder
  have hexec := exec_exit_of_dropThenPop (k := k) horder
  refine ⟨fun r hlow hcap hr => ?completes, fun hout => ?outside, fun hzero => ?empty,
    fun hlow hcap hnone => ?unwritten⟩
  case completes =>
    refine ⟨_, exec_of_body_ok hexec (exitDropThenPop_ok hlow hcap hr), retire_ip .., ?sp, retire_fp .., fun j => ?cells,
      retired_retire_of_effect ⟨r, ((s.sp : Int) - k - 1).toNat, rfl, by omega, ?order⟩, retire_run .., retire_output ..⟩
    case sp => rw [retire_sp, withIp_sp, withSp_sp, advance_sp]; omega
    case cells => simp
    case order =>
      rw [horder]
      exact ⟨by omega, by omega, hr⟩
  case outside => exact exec_of_body_error hexec (exitDropThenPop_outside hout)
  case empty =>
    have hpop : pop ((advance (.exit k) s).withSp ((s.sp : Int) - k).toNat) = .error .stackUnderflow :=
      pop_empty (by rw [withSp_sp, hzero, Int.toNat_zero])
    exact exec_of_body_error hexec (exitDropThenPop_of_pop_error hzero.ge
      (hzero.le.trans (Int.natCast_nonneg _)) hpop)
  case unwritten =>
    have htop : ((s.sp : Int) - k).toNat - 1 = ((s.sp : Int) - k - 1).toNat := by omega
    have hpop : pop ((advance (.exit k) s).withSp ((s.sp : Int) - k).toNat) = .error .uninitializedRead :=
      pop_unwritten (by rw [withSp_sp]; omega) (by rwa [withSp_sp, htop])
    exact exec_of_body_error hexec (exitDropThenPop_of_pop_error hlow.le hcap hpop)

/-! `EXIT` under `PopThenDrop`. -/

theorem exec_exit_of_popThenDrop (horder : s.cfg.exitOrder = .popThenDrop) :
    exec (.exit k) s = finish (.exit k) s (exitPopThenDrop k (advance (.exit k) s)) := by
  simp only [exec, execExit, horder]

theorem exitPopThenDrop_of_pop_error (hpop : pop s = .error c) : exitPopThenDrop k s = .error c := by
  simp only [exitPopThenDrop, hpop, error_bind]

/-- After the pop, a lowered `sp` out of range still fails. -/
theorem exitPopThenDrop_outside (hsp : 0 < s.sp) (hr : s.stack.read (s.sp - 1) = some r)
    (h : (s.sp : Int) - 1 - k < 0 ∨ (s.cfg.stackCap : Int) < s.sp - 1 - k) :
    exitPopThenDrop k s = .error .spOutOfRange := by
  have hpopped : ((s.withSp (s.sp - 1)).sp : Int) = (s.sp : Int) - 1 := by rw [withSp_sp]; omega
  have hmove : moveSp (s.withSp (s.sp - 1)) ((s.sp : Int) - 1 - k) = .error .spOutOfRange := moveSp_outside h
  simp only [exitPopThenDrop, pop_ok hsp hr, ok_bind, hpopped, hmove, error_bind]

/-- Settles O38: the return address is popped first, then the lowered `sp` is checked. -/
theorem exitPopsThenDrops : Obligations.ExitPopsThenDrops := by
  intro k s horder
  have hexec := exec_exit_of_popThenDrop (k := k) horder
  refine ⟨fun r hsp hr hlow hcap => ?completes, fun hempty => ?empty, fun hsp hnone => ?unwritten,
    fun r hsp hr hout => ?outside⟩
  case completes =>
    refine ⟨_, exec_of_body_ok hexec (exitPopThenDrop_ok hsp hr hlow hcap), retire_ip .., ?sp, retire_fp ..,
      fun j => ?cells, retired_retire_of_effect ⟨r, ((s.sp : Int) - 1 - k).toNat, rfl, by omega, ?order⟩, retire_run ..,
      retire_output ..⟩
    case sp => rw [retire_sp, withIp_sp, withSp_sp, advance_sp]; omega
    case cells => simp
    case order =>
      rw [horder]
      exact ⟨by omega, hsp, hr⟩
  case empty => exact exec_of_body_error hexec (exitPopThenDrop_of_pop_error (pop_empty hempty))
  case unwritten => exact exec_of_body_error hexec (exitPopThenDrop_of_pop_error (pop_unwritten hsp hnone))
  case outside => exact exec_of_body_error hexec (exitPopThenDrop_outside hsp hr hout)

/-! `EXIT 0`. -/

/-- The state with another `EXIT_ORDER`. -/
def withOrder (s : State) (order : ExitOrder) : State := { s with cfg := { s.cfg with exitOrder := order } }

theorem retire_withOrder (i : Instr) (s t : State) (order : ExitOrder) :
    retire i (withOrder s order) (withOrder t order) = withOrder (retire i s t) order := by
  simp only [retire, withOrder]
  cases s.cfg.traceEnabled <;> rfl

/-- Where its pop fails, `EXIT 0` takes the pop's fault under either order: the drop of no cell is in range. -/
theorem exec_exit_zero_of_pop_error (hcap : s.sp ≤ s.cfg.stackCap) (hpop : pop (advance (.exit 0) s) = .error c) :
    exec (.exit 0) s = .next (faultedAt s c (some 0x0008)) := by
  cases horder : s.cfg.exitOrder with
  | dropThenPop =>
    refine exec_of_body_error (exec_exit_of_dropThenPop horder) (exitDropThenPop_of_pop_error ?_ ?_ ?_) <;>
      rw [Int.sub_zero]
    · exact Int.natCast_nonneg _
    · exact Int.ofNat_le.2 hcap
    · exact hpop
  | popThenDrop => exact exec_of_body_error (exec_exit_of_popThenDrop horder) (exitPopThenDrop_of_pop_error hpop)

/-- Settles O39: under either order `EXIT 0` ends as its pop does, which does not look at the order. -/
theorem exitZeroIgnoresTheOrder : Obligations.ExitZeroIgnoresTheOrder := by
  intro s order hcap
  rcases Nat.eq_zero_or_pos s.sp with hempty | hsp
  · exact ⟨_, _, exec_exit_zero_of_pop_error hcap (pop_empty hempty),
      exec_exit_zero_of_pop_error hcap (pop_empty hempty), rfl⟩
  · cases hr : s.stack.read (s.sp - 1) with
    | none =>
      exact ⟨_, _, exec_exit_zero_of_pop_error hcap (pop_unwritten hsp hr),
        exec_exit_zero_of_pop_error hcap (pop_unwritten hsp hr), rfl⟩
    | some r =>
      exact ⟨_, _, exec_exit_zero_of_top hsp hcap hr, exec_exit_zero_of_top hsp hcap hr,
        retire_withOrder _ s (((advance (.exit 0) s).withSp (s.sp - 1)).withIp (sint16 r)) order⟩

/-! `JZR`. -/

/-- `JZR`'s test is that the signed value is zero (45_control.md R132). -/
theorem isZero_iff (x : Word16) : isZero x = true ↔ sint16 x = 0 := by
  have hx := x.isLt
  rw [isZero, beq_iff_eq, sint16_eq]
  split <;> omega

/-- With a readable top cell `JZR off` retires the state after the pop, with `ip` moved on exactly when the cell is
zero. -/
theorem exec_jzr_of_top (hsp : 0 < s.sp) (hx : s.stack.read (s.sp - 1) = some x) : exec (.jzr off) s =
    .next (retire (.jzr off) s
      (((advance (.jzr off) s).withSp (s.sp - 1)).withIp (if isZero x then s.ip + 2 + off else s.ip + 2))) := by
  have hpop : pop (advance (.jzr off) s) = .ok (x, (advance (.jzr off) s).withSp (s.sp - 1)) := pop_ok hsp hx
  refine exec_of_body_ok rfl ?_
  simp only [hpop, ok_bind, pure_eq_ok]
  cases isZero x <;> rfl

/-- Where its pop fails, `JZR off` takes the pop's fault. -/
theorem exec_jzr_of_pop_error (hpop : pop (advance (.jzr off) s) = .error c) :
    exec (.jzr off) s = .next (faultedAt s c (some 0x000B)) :=
  exec_of_body_error rfl (by simp only [hpop, error_bind])

/-- Settles O42: `JZR` ends as its pop does, and its test of the cell only chooses `ip`. -/
theorem jzrJumpsExactlyOnZero : Obligations.JzrJumpsExactlyOnZero := by
  intro off s
  refine ⟨fun x hsp hx => ?completes, fun hempty => exec_jzr_of_pop_error (pop_empty hempty),
    fun hsp hnone => exec_jzr_of_pop_error (pop_unwritten hsp hnone)⟩
  refine ⟨_, exec_jzr_of_top hsp hx, ?ip, retire_sp .., retire_fp .., fun j => ?cells,
    retired_retire_of_effect ⟨x, hsp, hx, rfl⟩, retire_run .., retire_output ..⟩
  case ip => simp only [retire_ip, withIp_ip, isZero_iff]
  case cells => simp

/-! `JMP`. -/

/-- `JMP off` retires the state with `ip` at the target. -/
theorem exec_jmp (off : Int) (s : State) :
    exec (.jmp off) s = .next (retire (.jmp off) s (s.withIp (s.ip + 2 + off))) := rfl

/-- Settles O43: the effect of `JMP` is on `ip` alone. -/
theorem jmpJumpsRelative : Obligations.JmpJumpsRelative := by
  intro off s
  have hcells : SameCells s (retire (.jmp off) s (s.withIp (s.ip + 2 + off))) := fun j => by simp
  exact ⟨_, exec_jmp off s, retire_ip .., retire_sp .., retire_fp .., hcells, retired_retire_of_effect rfl,
    retire_run .., retire_output ..⟩

/-- A step at the cells of `JMP -2` retires the state it starts from: the jump goes back to the opcode cell (40_cycle.md
R89). -/
theorem step_jmp_minus_two {rest : List Word16} (he : s.Enabled) (hip : 0 ≤ s.ip)
    (hcells : s.code.drop s.ip.toNat = 0x000A :: 0xFFFE :: rest) : step s = .next (retire (.jmp (-2)) s s) := by
  have hdecode : decode (s.code.drop s.ip.toNat) = .ok (.jmp (-2), rest) := by
    rw [hcells]
    exact decode_of_unaryOf rfl 0xFFFE rest
  have hback : s.withIp (s.ip + 2 + -2) = s := by rw [Int.add_neg_cancel_right]; rfl
  rw [stepRunsTheDecodedInstruction s _ rest he hip hdecode, exec_jmp, hback]

/-- Retiring writes nothing but the trace. -/
theorem untraced_retire (i : Instr) (s t : State) : untraced (retire i s t) = untraced t := by
  unfold retire
  split <;> rfl

/-- Settles O44: each step retires the state it starts from, and retiring adds at most a trace record. -/
theorem jmpMinusTwoLoopsForever : Obligations.JmpMinusTwoLoopsForever := by
  intro s rest he hip hcells n
  induction n generalizing s with
  | zero => exact ⟨s, rfl, rfl, fun _ => rfl⟩
  | succ n ih =>
    have henabled : (retire (.jmp (-2)) s s).Enabled := ⟨by simpa using he.1, by simpa using he.2⟩
    obtain ⟨t, hrun, hsame, hquiet⟩ := ih _ henabled (by simpa using hip) (by simpa using hcells)
    refine ⟨t, ?run, hsame.trans (untraced_retire _ s s), fun hoff => ?untraced⟩
    case run => rw [run_succ_of_next core s _ n (step_jmp_minus_two he hip hcells), hrun]
    case untraced =>
      rw [retire_untraced s _ s hoff] at hquiet
      exact hquiet hoff

end Sys2Proof.Machine

/-! Proof that the trace port is an observer (10_state.md R33): every part of a step commutes with switching it off and
forgetting its records. -/
namespace Sys2Proof.Machine

open Sys2Proof.Claims

variable {α β : Type} {i : Instr} {s : State}

/-! Sequences and the stack primitives (20_memory.md R46 to R49). -/

/-- A sequence commutes with forgetting when each of its parts does. -/
theorem bind_forget {g : α → α} {h : β → β} {x x' : Except Cause α} {f f' : α → Except Cause β} (hx : x' = x.map g)
    (hf : ∀ a, f' (g a) = (f a).map h) : (x' >>= f') = (x >>= f).map h := by
  subst hx
  cases x with
  | ok a => exact hf a
  | error c => rfl

theorem push_untraced (s : State) (v : Word16) : push (untraced s) v = (push s v).map untraced := by
  rcases Nat.lt_or_ge s.sp s.cfg.stackCap with hroom | hfull
  · rw [push_ok hroom]
    exact push_ok hroom
  · rw [push_full hfull]
    exact push_full hfull

theorem pop_untraced (s : State) : pop (untraced s) = (pop s).map (Prod.map id untraced) := by
  rcases Nat.eq_zero_or_pos s.sp with hempty | hsp
  · rw [pop_empty hempty]
    exact pop_empty hempty
  · cases hv : s.stack.read (s.sp - 1) with
    | none =>
      rw [pop_unwritten hsp hv]
      exact pop_unwritten hsp hv
    | some v =>
      rw [pop_ok hsp hv]
      exact pop_ok hsp hv

theorem memRead_untraced (s : State) (n : Int) : memRead (untraced s) n = (memRead s n).map id := by
  rw [Except.map_id]
  rfl

theorem memWrite_untraced (s : State) (n : Int) (v : Word16) :
    memWrite (untraced s) n v = (memWrite s n v).map untraced := by
  by_cases hin : InStack s n
  · rw [memWrite_ok hin]
    exact memWrite_ok hin
  · rw [memWrite_outside hin]
    exact memWrite_outside hin

theorem moveSp_untraced (s : State) (n : Int) : moveSp (untraced s) n = (moveSp s n).map untraced := by
  by_cases hout : n < 0 ∨ (s.cfg.stackCap : Int) < n
  · rw [moveSp_outside hout]
    exact moveSp_outside hout
  · have hin : 0 ≤ n ∧ n ≤ s.cfg.stackCap := by omega
    rw [moveSp_ok hin]
    exact moveSp_ok hin

/-! The bodies. -/

theorem binary_untraced (f : Int → Int → Int) (s : State) : binary f (untraced s) = (binary f s).map untraced :=
  bind_forget (pop_untraced s) fun first => bind_forget (pop_untraced first.2) fun second => push_untraced second.2 _

theorem exitDropThenPop_untraced (k : Int) (s : State) :
    exitDropThenPop k (untraced s) = (exitDropThenPop k s).map untraced :=
  bind_forget (moveSp_untraced s _) fun moved => bind_forget (pop_untraced moved) fun _ => rfl

theorem exitPopThenDrop_untraced (k : Int) (s : State) :
    exitPopThenDrop k (untraced s) = (exitPopThenDrop k s).map untraced :=
  bind_forget (pop_untraced s) fun popped => bind_forget (moveSp_untraced popped.2 _) fun _ => rfl

/-- An instruction whose body commutes with forgetting ends the same way: its record is forgotten, and a fault writes
none. -/
theorem finish_untraced {body body' : Except Cause State} (h : body' = body.map untraced) :
    finish i (untraced s) body' = untracedAnswer (finish i s body) := by
  subst h
  cases body with
  | error c => rfl
  | ok t => exact congrArg Host.Outcome.next (untraced_retire i s t).symm

theorem exec_untraced (i : Instr) (s : State) : exec i (untraced s) = untracedAnswer (exec i s) := by
  cases i with
  | halt => exact finish_untraced (body := .ok (advance .halt s).halt) rfl
  | jmp off => exact finish_untraced (body := .ok (s.withIp (s.ip + 2 + off))) rfl
  | add | sub | mpy => exact finish_untraced (binary_untraced _ (advance _ s))
  | dot => exact finish_untraced (bind_forget (pop_untraced (advance .dot s)) fun _ => rfl)
  | jzr off =>
    exact finish_untraced (bind_forget (pop_untraced (advance (.jzr off) s)) fun popped =>
      congrArg Except.ok
        (apply_ite untraced (isZero popped.1) (popped.2.withIp (relativeTarget popped.2 off)) popped.2).symm)
  | unlk =>
    exact finish_untraced (bind_forget (moveSp_untraced (advance .unlk s) _) fun moved =>
      bind_forget (pop_untraced moved) fun _ => rfl)
  | exit k =>
    have horder : (untraced s).cfg.exitOrder = s.cfg.exitOrder := rfl
    refine finish_untraced ?_
    rw [horder]
    cases s.cfg.exitOrder with
    | dropThenPop => exact exitDropThenPop_untraced k (advance (.exit k) s)
    | popThenDrop => exact exitPopThenDrop_untraced k (advance (.exit k) s)
  | int k => exact finish_untraced (push_untraced (advance (.int k) s) _)
  | call tgt => exact finish_untraced (bind_forget (push_untraced (advance (.call tgt) s) _) fun _ => rfl)
  | link k =>
    exact finish_untraced (bind_forget (push_untraced (advance (.link k) s) _) fun pushed =>
      moveSp_untraced (pushed.withFp (pushed.sp - 1)) _)
  | load k =>
    exact finish_untraced (bind_forget (memRead_untraced (advance (.load k) s) _) fun v =>
      push_untraced (advance (.load k) s) v)
  | store k =>
    exact finish_untraced (bind_forget (pop_untraced (advance (.store k) s)) fun popped =>
      memWrite_untraced popped.2 _ popped.1)

/-- Settles O21: whether a step is enabled and what it fetches do not depend on the trace port, and neither does the
execution but for the trace. -/
theorem traceChangesNothingElse : Obligations.TraceChangesNothingElse := by
  intro s
  have henabled : notEnabled (untraced s) = notEnabled s := rfl
  have hfetch : fetch (untraced s) = fetch s := rfl
  unfold step
  rw [henabled, hfetch]
  cases notEnabled s with
  | some f => rfl
  | none =>
    cases fetch s with
    | error e => rfl
    | ok i => exact exec_untraced i s

end Sys2Proof.Machine
